-- ==== Sys2Proof/Word.lean ====
section
/-!
DEFINITION. The widths the spec fixes (00_scope.md R9: `XLEN`, `ARGW`, `CMDW`, `RSPW`) as types. Every value of the block is an
unsigned integer of a stated width (R11); nothing in it is signed (R13).
-/

namespace Sys2Proof

/-- A 64-bit unsigned value: `STATE`, a raw word, an operand, a reply datum (R9 `XLEN`, `ARGW`). -/
abbrev Word := BitVec 64

/-- A 67-bit command word (R9 `CMDW`, R61). -/
abbrev CmdWord := BitVec 67

/-- A 66-bit reply beat as it stands on the wires (R9 `RSPW`, R64). -/
abbrev RspWord := BitVec 66

/-- One bit of a raw word or of the bit FIFO: `true` is 1 (R23). -/
abbrev Bit := Bool

end Sys2Proof
end

