-- ==== Sys2Proof/Syntax.lean ====
section
/-!
DEFINITION. Abstract syntax: the eight rows of spec/opcode_table.json (30_encoding.md R63), and the lines of the text form
(R71 to R73). There is one command format with one 64-bit operand (R61), carried by every constructor, also where it is ignored
(R69), so that no bit of a command word is lost.
-/

namespace Sys2Proof

/-- A command, one constructor per value of `op` (R63, R68). -/
inductive Instr where
  /-- `op` = 1: `generate_bit()`; the operand is ignored (R69). -/
  | bit (arg : Word)
  /-- `op` = 2: `generate_bits(n)`. -/
  | bits (n : Word)
  /-- `op` = 3: `pack_bits(num_bits)`. -/
  | pack (numBits : Word)
  /-- `op` = 4: `generate_bounded(max)`. -/
  | bounded (max : Word)
  /-- `op` = 0, reserved (R68). -/
  | reserved0 (arg : Word)
  /-- `op` = 5, reserved (R68). -/
  | reserved5 (arg : Word)
  /-- `op` = 6, reserved (R68). -/
  | reserved6 (arg : Word)
  /-- `op` = 7, reserved (R68). -/
  | reserved7 (arg : Word)
deriving DecidableEq, Repr

/-- One line of the text form (R71, R72, R73), numbers as written and not yet checked. -/
inductive SourceLine where
  /-- `bit` and its aliases. -/
  | bit
  /-- `bits <n>`. -/
  | bits (n : Nat)
  /-- `pack <k>`. -/
  | pack (k : Nat)
  /-- `bounded [<max>]`; without an operand the pseudo-command of R72. -/
  | bounded (max : Option Nat)
  /-- `.cmd op=<o> arg=<a>`: the raw command word. -/
  | cmd (op arg : Nat)
  /-- `.reset` (default seed) or `.reset <seed>`. -/
  | reset (seed : Option Nat)
  /-- an empty line or a comment only. -/
  | blank
deriving DecidableEq, Repr

end Sys2Proof
end

