-- ==== Sys2Proof/Config.lean ====
section
/-!
DEFINITION. The implementation parameters of 00_scope.md R9, each a configuration field (decision D27: the literals are unaudited, so
that a corrected literal changes one field and no rule). The values of THIS hardware are `Sys2Proof.Machine.hw` in
Machine/Params.lean. The widths of R9 are the types of Word.lean. The block is deterministic (R148), so no parameter is an open value.
-/

namespace Sys2Proof

/-- Direction of one shift stage of the scrambler (R9 `DIR_A`, `DIR_B`, `DIR_C`). -/
inductive ShiftDir where
  | left
  | right
deriving DecidableEq, Repr

/-- The parameters of R9 that a rule reads. -/
structure Config where
  /-- `SH_A`: amount of the first shift. -/
  shA : Nat
  /-- `DIR_A`: direction of the first shift. -/
  dirA : ShiftDir
  /-- `SH_B`: amount of the second shift. -/
  shB : Nat
  /-- `DIR_B`: direction of the second shift. -/
  dirB : ShiftDir
  /-- `SH_C`: amount of the third shift. -/
  shC : Nat
  /-- `DIR_C`: direction of the third shift. -/
  dirC : ShiftDir
  /-- `MULT`: the output multiplier. -/
  mult : Word
  /-- `THRESH`: the refill loop threshold in bits. -/
  thresh : Nat
  /-- `PAIRS`: non-overlapping bit pairs scanned per raw word. -/
  pairs : Nat
  /-- `DEFAULT_SEED`: the seed used when none is supplied. -/
  defaultSeed : Word
  /-- `ZERO_SEED_SUBST`: the value that replaces a zero seed. -/
  zeroSeedSubst : Word
  /-- `DEFAULT_MAX`: the `max` of `bounded` with no operand (it lives in the text form only, R72). -/
  defaultMax : Nat
  /-- `PACK_MAX`: the largest legal `num_bits` of `PACK`. -/
  packMax : Nat
  /-- `RETRY_CAP`: iteration cap of the rejection loop. This hardware has none (R130) and no rule says what a capped loop does with
  the bits of rejected attempts (R164), so no definition of the model reads this field. -/
  retryCap : Option Nat
deriving DecidableEq, Repr

end Sys2Proof
end

