-- ==== Sys2Proof/WellFormed.lean ====
section
/-!
DEFINITION. Well-formedness checks. A command is well formed for every operand: decoding is total and no value of `arg` makes a word
undecodable (30_encoding.md R74). A line of the text form is well formed when its numbers are in range (R71, R73). A configuration is
well formed under the constraints of 93_implementation_defined.md U7 and U19 and of the types of State.
-/

namespace Sys2Proof

/-- Every command can be encoded: the operand field takes every 64-bit value (R62, R74). `PACK` above 64 is a well-formed command
that the block refuses (R120). -/
def Instr.wellFormed : Instr → Bool
  | .bit _ => true
  | .bits _ => true
  | .pack _ => true
  | .bounded _ => true
  | .reserved0 _ => true
  | .reserved5 _ => true
  | .reserved6 _ => true
  | .reserved7 _ => true

/-- A number of the text form must lie in 0 to 2^64 − 1 (R71). -/
def numberInRange (n : Nat) : Bool := decide (n < 2 ^ 64)

/-- The range checks of R71 and R73 on a line of the text form. -/
def SourceLine.wellFormed : SourceLine → Bool
  | .bit => true
  | .bits n => numberInRange n
  | .pack k => numberInRange k
  | .bounded none => true
  | .bounded (some m) => numberInRange m
  | .cmd op arg => decide (op < 8) && numberInRange arg
  | .reset none => true
  | .reset (some seed) => numberInRange seed
  | .blank => true

/-- A shift amount is in 1..63 (R82, U19). -/
def shiftInRange (k : Nat) : Bool := decide (0 < k) && decide (k < 64)

/-- The constraints under which the rules hold for another configuration: shift amounts in 1..63 and an odd `MULT` (U19),
`THRESH` at least 1 (U7), a non-zero substitute for a zero seed (R181), no more pairs than a word has (R46), a pack that fits `ACC`
(D7), and a default `max` the text form can write (R71). -/
def Config.wellFormed (c : Config) : Bool :=
  shiftInRange c.shA && shiftInRange c.shB && shiftInRange c.shC && c.mult.getLsbD 0 &&
  decide (1 ≤ c.thresh) && decide (c.zeroSeedSubst ≠ 0) && decide (c.pairs ≤ 32) && decide (c.packMax ≤ 64) &&
  numberInRange c.defaultMax

end Sys2Proof
end

