-- ==== Sys2Proof/Decode.lean ====
section
/-!
DEFINITION. Decoder and encoder of the 67-bit command word (30_encoding.md R61, R63, R74). Decoding is total on command words; a
number that is no 67-bit word is rejected by name. The encoder is written from the same table.
-/

namespace Sys2Proof

/-- Field `op`, bits 66:64 of a command word (R61). -/
def opField (w : CmdWord) : BitVec 3 := w.extractLsb' 64 3

/-- Field `arg`, bits 63:0 of a command word (R61, R62). -/
def argField (w : CmdWord) : Word := w.extractLsb' 0 64

/-- The opcode map of R63, all eight values of `op`. Total, and a function of `op` alone but for the operand it carries (R74). -/
def decode (w : CmdWord) : Instr :=
  match (opField w).toFin with
  | 0 => .reserved0 (argField w)
  | 1 => .bit (argField w)
  | 2 => .bits (argField w)
  | 3 => .pack (argField w)
  | 4 => .bounded (argField w)
  | 5 => .reserved5 (argField w)
  | 6 => .reserved6 (argField w)
  | 7 => .reserved7 (argField w)

/-- The value of `op` that R63 gives a command. -/
def opcodeOf : Instr → BitVec 3
  | .reserved0 _ => 0
  | .bit _ => 1
  | .bits _ => 2
  | .pack _ => 3
  | .bounded _ => 4
  | .reserved5 _ => 5
  | .reserved6 _ => 6
  | .reserved7 _ => 7

/-- The operand a command carries in `arg` (R62, R69). -/
def operandOf : Instr → Word
  | .reserved0 a => a
  | .bit a => a
  | .bits n => n
  | .pack k => k
  | .bounded m => m
  | .reserved5 a => a
  | .reserved6 a => a
  | .reserved7 a => a

/-- The command word of a command: `op` above `arg` (R61). -/
def encode (i : Instr) : CmdWord := opcodeOf i ++ operandOf i

/-- Why a number is not decoded. -/
inductive DecodeError where
  /-- The number has a bit above bit 66: a command word is exactly 67 bits (R61, R70). -/
  | notACommandWord
deriving DecidableEq, Repr

/-- A number read as a command word: rejected by name if it does not fit 67 bits (R61). -/
def wordOfNat (v : Nat) : Except DecodeError CmdWord :=
  if v < 2 ^ 67 then .ok (BitVec.ofNat 67 v) else .error .notACommandWord

/-- Decoding of a number, bit 0 its least significant (R11, R44). -/
def decodeNat (v : Nat) : Except DecodeError Instr :=
  match wordOfNat v with
  | .ok w => .ok (decode w)
  | .error e => .error e

/-- The number that the low `nbits` bits of `w` spell; every bit above is 0. -/
def tableNumber (nbits w : Nat) : Nat := w % 2 ^ nbits

/-- The command this decoder reads from a row of spec/opcode_table.json whose bits are `w`; `none` where it rejects. -/
def decodeTableWord (nbits w : Nat) : Option Instr :=
  match decodeNat (tableNumber nbits w) with
  | .ok i => some i
  | .error _ => none

end Sys2Proof
end

