-- ==== Sys2Proof/Machine/Params.lean ====
section
/-!
DEFINITION. The parameter values of this hardware (00_scope.md R9) and the seed rule (70_reset_and_hazards.md R181).
-/

namespace Sys2Proof.Machine

/-- The configuration of this hardware: the column "value" of R9. -/
def hw : Config where
  shA := 12
  dirA := .left
  shB := 25
  dirB := .right
  shC := 27
  dirC := .left
  mult := 2685821657736338717#64
  thresh := 32
  pairs := 32
  defaultSeed := 1234567890#64
  zeroSeedSubst := 1#64
  defaultMax := 256
  packMax := 64
  retryCap := none

/-- `FIFO_CAP` = `THRESH` − 1 + `PAIRS`: the most bits `Q` ever holds (R9, 10_state.md R25). -/
def fifoCap (c : Config) : Nat := c.thresh - 1 + c.pairs

/-- Seed selection and normalisation (R181): the strapped seed or the default one, and the substitute for a zero seed. -/
def seedState (c : Config) (sel : Bool) (seedIn : Word) : Word :=
  let s := if sel then seedIn else c.defaultSeed
  if s = 0 then c.zeroSeedSubst else s

end Sys2Proof.Machine
end

