-- ==== Sys2Proof/Machine/State.lean ====
section
/-!
DEFINITION. The machine's state as plain data (10_state.md R20 to R39; 30_encoding.md R60 for the ports), the reasons a step can stop,
and the state after reset (R35). Inventory: INVENTORY.md, '## State'.
-/

namespace Sys2Proof.Machine

/-- Values of the register `PHASE` (44_sequencer.md R141). Values 5 to 7 of the 3-bit register are never taken. -/
inductive Phase where
  | idle
  | need
  | fill
  | check
  | resp
deriving DecidableEq, Repr

/-- Field `status` of a reply beat, all four values of its two bits (30_encoding.md R65). -/
inductive Status where
  | okLast
  | okMore
  | doneEmpty
  | err
deriving DecidableEq, Repr

/-- A reply beat (30_encoding.md R64). -/
structure Beat where
  status : Status
  data : Word
deriving DecidableEq, Repr

/-- What the host does between two steps of the block (70_reset_and_hazards.md R192; log 2). There is no act that withdraws or changes
a waiting command: the host holds `cmd` until the transfer step (R188, 93_implementation_defined.md U13). -/
inductive HostAct where
  /-- nothing, for one step. -/
  | pause
  /-- offer a command word: `cmd_valid` = 1 with `cmd` = w. Waits while an earlier word is still waiting. -/
  | offer (w : CmdWord)
  /-- drive `rsp_ready`. -/
  | setReady (ready : Bool)
  /-- drive `rst` = 1 with the straps `seed_sel` and `seed_in`. -/
  | assertReset (sel : Bool) (seedIn : Word)
  /-- drive `rst` = 0. -/
  | releaseReset
deriving DecidableEq, Repr

/-- Faults of the model. The block has no fault state (60_exceptions.md R178): each constructor names a register content that no run
reaches and for which the spec gives the step no effect (log 6). All are safe: the model stops where nothing is said. -/
inductive Fault where
  /-- Step `NEED` would write `ACC[CNT]` with `CNT` above 63 (R143: "a bit is written only at CNT <= 63"). Safe. -/
  | packIndexOutOfRange
  /-- Step `CHECK` with a reserved `OPR` (R145: "never reached with a reserved OPR"). Safe. -/
  | reservedOprAtCheck
  /-- Step `CHECK` of a `BITS` with `REM` = 0 (R145: "REM >= 1 whenever CHECK is reached"). Safe. -/
  | remUnderflow
deriving DecidableEq, Repr

/-- Refusals of the model (not the block's `ERR` replies, which are next states). -/
inductive Refusal where
  /-- An instruction with no meaning in the model yet; raised by no arm of `exec`. Safe. -/
  | notModelled (mnemonic : String)
deriving DecidableEq, Repr

/-- The state: the block's architectural and working state, the levels of its input ports, and the model's own record of the host. -/
structure State where
  /-- `STATE`, the scrambler register (R21). -/
  state : Word
  /-- `Q`, the bit FIFO, oldest bit first (R23); its length is `LEN` (R26). -/
  q : List Bit
  /-- `HEAD`, the index of the front of `Q` in its ring storage (R26). -/
  head : BitVec 6
  /-- `PHASE` (R27, R141). -/
  phase : Phase
  /-- `OPR`, the opcode of the command in progress (R27). -/
  opr : BitVec 3
  /-- `KREG`, how many bits the current pack must draw (R27). -/
  kreg : BitVec 7
  /-- `CNT`, how many bits the current pack has drawn (R27). -/
  cnt : BitVec 7
  /-- `ACC`, the packer's accumulator (R27, R28). -/
  acc : Word
  /-- `MAXR`, the operand of the `BOUNDED` in progress (R27). -/
  maxr : Word
  /-- `REM`, how many bits the `BITS` in progress still owes (R27). -/
  rem : Word
  /-- `RSP`, the reply beat offered while `PHASE` = `RESP` (R27). -/
  rsp : Beat
  /-- Input port `rst` (R60). -/
  rst : Bool
  /-- Input port `seed_sel` (R30, R60). -/
  seedSel : Bool
  /-- Input port `seed_in` (R30, R60). -/
  seedIn : Word
  /-- Input ports `cmd_valid` and `cmd` (R60): `none` is `cmd_valid` = 0. -/
  cmd : Option CmdWord
  /-- Input port `rsp_ready` (R60). -/
  rspReady : Bool
  /-- The model's own: what the host does next, one act after each step of the block (log 2). -/
  script : List HostAct
  /-- The model's own: the beats transferred so far, oldest first, which is the result of a run (44_sequencer.md R150; log 3). -/
  sent : List Beat
deriving DecidableEq, Repr

/-- Right after reset is released with `seed_sel` = 0 (R35, R180 to R182; log 1 for the straps, log 2 for the host's side). -/
def State.reset : State where
  state := seedState hw false 0
  q := []
  head := 0
  phase := .idle
  opr := 0
  kreg := 0
  cnt := 0
  acc := 0
  maxr := 0
  rem := 0
  rsp := ⟨.okLast, 0⟩
  rst := false
  seedSel := false
  seedIn := 0
  cmd := none
  rspReady := true
  script := []
  sent := []

end Sys2Proof.Machine
end

