-- ==== Sys2Proof/Machine/Flags.lean ====
section
/-!
DEFINITION. The three conditions that steer the sequencer (10_state.md R32): pure functions of state, stored nowhere. The block has no
flag register.
-/

namespace Sys2Proof.Machine

/-- `EMPTY = (len(Q) = 0)`, the trigger of a refill (R32, 41_whitener.md R99, R100). -/
def emptyFlag (q : List Bit) : Bool := q.isEmpty

/-- `LOW = (len(Q) < THRESH)`, the loop condition of a refill (R32, R98, R99). -/
def lowFlag (c : Config) (q : List Bit) : Bool := decide (q.length < c.thresh)

/-- `ACCEPT = (ACC < MAXR)`, an unsigned 64-bit comparison (R32, 43_sampler.md R128, R136). -/
def acceptFlag (acc maxr : Word) : Bool := decide (acc.toNat < maxr.toNat)

end Sys2Proof.Machine
end

