-- ==== Sys2Proof/Machine/Operands.lean ====
section
/-!
DEFINITION. Operand forms: how each command reads `arg` (30_encoding.md R62, R69), `bitlen` (00_scope.md R12), and the wire forms of
the reply beat and of `PHASE` (R64, R65; 44_sequencer.md R141).
-/

namespace Sys2Proof.Machine

/-- `bitlen(v)`: one plus the index of the highest set bit of `v` (R12). No rule evaluates it at 0. -/
def bitlen (v : Word) : Nat := Nat.log2 v.toNat + 1

/-- `PACK`'s range check on the whole of `arg` as an unsigned number (42_packer.md R120). -/
def packTooLarge (c : Config) (arg : Word) : Bool := decide (c.packMax < arg.toNat)

/-- The degenerate range of `BOUNDED`: `max <= 1`, unsigned (43_sampler.md R126). -/
def degenerateMax (arg : Word) : Bool := decide (arg.toNat ≤ 1)

/-- The degenerate count of `BITS`: `n = 0` (41_whitener.md R108). -/
def zeroCount (arg : Word) : Bool := decide (arg = 0)

/-- `arg[6:0]`, what `PACK` loads into `KREG` (44_sequencer.md R142). -/
def packCount (arg : Word) : BitVec 7 := arg.extractLsb' 0 7

/-- `bitlen(arg)` as `KREG` holds it (44_sequencer.md R142, 43_sampler.md R127). -/
def boundedWidth (arg : Word) : BitVec 7 := BitVec.ofNat 7 (bitlen arg)

/-- `zext_64` of one bit (00_scope.md R13, 30_encoding.md R75). -/
def bitWord (b : Bit) : Word := if b then 1 else 0

/-- The two bits of a status code (30_encoding.md R65). -/
def statusBits : Status → BitVec 2
  | .okLast => 0
  | .okMore => 1
  | .doneEmpty => 2
  | .err => 3

/-- The status a two-bit code names (30_encoding.md R65). -/
def statusOfBits (b : BitVec 2) : Status :=
  match b.toFin with
  | 0 => .okLast
  | 1 => .okMore
  | 2 => .doneEmpty
  | 3 => .err

/-- A reply beat on the wires: `status` in bits 65:64, `data` in bits 63:0 (30_encoding.md R64). -/
def beatWord (b : Beat) : RspWord := statusBits b.status ++ b.data

/-- The reply beat that 66 wires carry (30_encoding.md R64). -/
def beatOfWord (w : RspWord) : Beat := ⟨statusOfBits (w.extractLsb' 64 2), w.extractLsb' 0 64⟩

/-- The value of the 3-bit register `PHASE` (44_sequencer.md R141). -/
def phaseBits : Phase → BitVec 3
  | .idle => 0
  | .need => 1
  | .fill => 2
  | .check => 3
  | .resp => 4

/-- Error code `ERR_OP` (60_exceptions.md R161). -/
def errOp : Word := 1

/-- Error code `ERR_ARG` (60_exceptions.md R161). -/
def errArg : Word := 2

end Sys2Proof.Machine
end

