-- ==== Sys2Proof/Machine/Ops.lean ====
section
/-!
DEFINITION. The named operations over the block's state: the FIFO primitives (00_scope.md R14), starting a pack, offering a reply,
refusing a command (60_exceptions.md R160: the place of an exception) and ending a reply (R170: the place of the return), and reset
as construction (70_reset_and_hazards.md R180 to R182).
-/

namespace Sys2Proof.Machine

/-- `Outcome` of this machine. -/
abbrev Result := Host.Outcome State Fault Refusal

/-- `len(Q)`, which is `LEN` (10_state.md R26). -/
def State.len (s : State) : Nat := s.q.length

/-- Entry `i` of the ring storage `FMEM`: the live window holds `Q` from `HEAD` on; an entry outside it is don't-care and has no value
(10_state.md R26, R38; log 5). -/
def State.fmem (s : State) (i : BitVec 6) : Option Bit := s.q[(i - s.head).toNat]?

/-- `FifoPop()` on the state: the oldest bit leaves, `HEAD` moves on (R14, R26). Performed only when `Q` is not empty. -/
def State.fifoPop (s : State) : State := { s with q := s.q.tail, head := s.head + 1 }

/-- `FifoAppend(L)`: the list goes to the back, in order (R14, R26). -/
def State.fifoAppend (s : State) (l : List Bit) : State := { s with q := s.q ++ l }

/-- Write one bit of a 64-bit register: `v[j] <- b` for `j <= 63` (44_sequencer.md R143, 42_packer.md R118). -/
def writeBit (v : Word) (j : Nat) (b : Bit) : Word := (v &&& ~~~(1#64 <<< j)) ||| (bitWord b <<< j)

/-- Start of a pack of `k` bits: `KREG <- k; CNT <- 0; ACC <- 0; PHASE <- NEED` (44_sequencer.md R142). -/
def State.startPack (s : State) (k : BitVec 7) : State := { s with kreg := k, cnt := 0, acc := 0, phase := .need }

/-- Start again with the same `KREG`: `CNT <- 0; ACC <- 0; PHASE <- NEED` (44_sequencer.md R145, R146). -/
def State.restartPack (s : State) : State := { s with cnt := 0, acc := 0, phase := .need }

/-- `RSP <- (status, data); PHASE <- RESP` (44_sequencer.md R142, R145). -/
def State.offerReply (s : State) (status : Status) (data : Word) : State :=
  { s with rsp := ⟨status, data⟩, phase := .resp }

/-- `reply ERR(code)`: the one shared refusal. Nothing is saved, nothing but `RSP` and `PHASE` changes (60_exceptions.md R160, R169). -/
def State.refuse (s : State) (code : Word) : State := s.offerReply .err code

/-- The beat in `RSP` is transferred to the host (44_sequencer.md R146, R150). -/
def State.transfer (s : State) : State := { s with sent := s.sent ++ [s.rsp] }

/-- The command is over: `PHASE <- IDLE` (44_sequencer.md R146; after a refusal, 60_exceptions.md R170). -/
def State.endCommand (s : State) : State := { s with phase := .idle }

/-- Reset is construction: every piece of block state takes its reset value, `STATE` following the straps (10_state.md R35,
70_reset_and_hazards.md R180 to R182). The ports, the host's script and the beats already transferred (R183) stay. -/
def State.construct (c : Config) (s : State) : State :=
  { s with
    state := seedState c s.seedSel s.seedIn
    q := []
    head := 0
    phase := .idle
    opr := 0
    kreg := 0
    cnt := 0
    acc := 0
    maxr := 0
    rem := 0
    rsp := ⟨.okLast, 0⟩ }

/-- Apply a total change to the state of a step that goes on. -/
def mapNext (f : State → State) : Result → Result
  | .next t => .next (f t)
  | .fault r => .fault r
  | .refused r => .refused r

end Sys2Proof.Machine
end

