-- ==== Sys2Proof/Machine/BitCommands.lean ====
section
/-!
DEFINITION. Step `ACCEPT` of `BIT` and `BITS` (44_sequencer.md R142; 41_whitener.md R106 to R108).
-/

namespace Sys2Proof.Machine

/-- `BIT`: a pack of one bit. The operand is ignored (30_encoding.md R69, R142, R106). -/
def execBit (_arg : Word) (s : State) : Result := .next ({ s with opr := 1 }.startPack 1)

/-- `BITS n`: `REM <- n`; with `n` = 0 the empty result, else packs of one bit (R142, R107, R108). -/
def execBits (n : Word) (s : State) : Result :=
  let s1 := { s with opr := 2, rem := n }
  if zeroCount n then .next (s1.offerReply .doneEmpty 0) else .next (s1.startPack 1)

end Sys2Proof.Machine
end

