-- ==== Sys2Proof/Machine/BoundedCommand.lean ====
section
/-!
DEFINITION. Step `ACCEPT` of `BOUNDED` (44_sequencer.md R142; 43_sampler.md R126, R127, R135).
-/

namespace Sys2Proof.Machine

/-- `BOUNDED max`: 0 at once for `max <= 1`, else the first attempt, a pack of `bitlen(max)` bits (R142, R126, R127). -/
def execBounded (max : Word) (s : State) : Result :=
  let s1 := { s with opr := 4 }
  if degenerateMax max then .next (s1.offerReply .okLast 0)
  else .next ({ s1 with maxr := max }.startPack (boundedWidth max))

end Sys2Proof.Machine
end

