-- ==== Sys2Proof/Machine/PackCommand.lean ====
section
/-!
DEFINITION. Step `ACCEPT` of `PACK` (44_sequencer.md R142; 42_packer.md R119, R120).
-/

namespace Sys2Proof.Machine

/-- `PACK k`: refused with `ERR_ARG` above `PACK_MAX`, else a pack of `k` bits (R142, R119, R120, R163). -/
def execPack (numBits : Word) (s : State) : Result :=
  let s1 := { s with opr := 3 }
  if packTooLarge hw numBits then .next (s1.refuse errArg) else .next (s1.startPack (packCount numBits))

end Sys2Proof.Machine
end

