-- ==== Sys2Proof/Machine/ReservedCommands.lean ====
section
/-!
DEFINITION. Step `ACCEPT` of the reserved opcodes 0, 5, 6, 7: accepted like any other command and refused with `ERR_OP`
(30_encoding.md R68, 44_sequencer.md R142, 60_exceptions.md R162). The operand is ignored (R69).
-/

namespace Sys2Proof.Machine

/-- A command word with `op` = 0 (R68, R162). -/
def execReserved0 (_arg : Word) (s : State) : Result := .next ({ s with opr := 0 }.refuse errOp)

/-- A command word with `op` = 5 (R68, R162). -/
def execReserved5 (_arg : Word) (s : State) : Result := .next ({ s with opr := 5 }.refuse errOp)

/-- A command word with `op` = 6 (R68, R162). -/
def execReserved6 (_arg : Word) (s : State) : Result := .next ({ s with opr := 6 }.refuse errOp)

/-- A command word with `op` = 7 (R68, R162). -/
def execReserved7 (_arg : Word) (s : State) : Result := .next ({ s with opr := 7 }.refuse errOp)

end Sys2Proof.Machine
end

