-- ==== Sys2Proof/Machine/Dispatch.lean ====
section
/-!
DEFINITION. The dispatch: one arm per command, each one direct call of that command's meaning (its step `ACCEPT`, 44_sequencer.md R142).
-/

namespace Sys2Proof.Machine

open Sys2Proof

def exec (i : Instr) (s : State) : Host.Outcome State Fault Refusal :=
  match i with
  | .bit arg => Sys2Proof.Machine.execBit arg s
  | .bits n => Sys2Proof.Machine.execBits n s
  | .pack numBits => Sys2Proof.Machine.execPack numBits s
  | .bounded max => Sys2Proof.Machine.execBounded max s
  | .reserved0 arg => Sys2Proof.Machine.execReserved0 arg s
  | .reserved5 arg => Sys2Proof.Machine.execReserved5 arg s
  | .reserved6 arg => Sys2Proof.Machine.execReserved6 arg s
  | .reserved7 arg => Sys2Proof.Machine.execReserved7 arg s

end Sys2Proof.Machine
end

