-- ==== Sys2Proof/Machine/HostPort.lean ====
section
/-!
DEFINITION. The block's ports (30_encoding.md R60) and the host at the other end of them (70_reset_and_hazards.md R188, R192): the
outputs as functions of the state, the transfer on the command channel, and the host's act after a step (log 2).
-/

namespace Sys2Proof.Machine

/-- Output `cmd_ready`: `PHASE = IDLE`, and 0 while `rst` = 1 (R60, R180). -/
def State.cmdReady (s : State) : Bool := !s.rst && decide (s.phase = .idle)

/-- Input `cmd_valid` (R60). -/
def State.cmdValid (s : State) : Bool := s.cmd.isSome

/-- Output `rsp_valid`: `PHASE = RESP`, and 0 while `rst` = 1 (R60, R180). -/
def State.rspValid (s : State) : Bool := !s.rst && decide (s.phase = .resp)

/-- Output `rsp`: `RSP` while `rsp_valid` = 1; unspecified otherwise, and then no value is given (R60, log 4). -/
def State.rspOut (s : State) : Option RspWord := if s.rspValid then some (beatWord s.rsp) else none

/-- The command word on the channel is transferred: the host has handed it over and it is offered no more (R188, R192). -/
def State.takeCommand (s : State) : State := { s with cmd := none }

/-- A command word stands on the channel and the block is ready for it: what a host that wants word `w` executed next brings about. -/
def State.withCommand (s : State) (w : CmdWord) : State := { s with rst := false, phase := .idle, cmd := some w }

/-- One act of the host. An offer waits (the act stays first in the script) while an earlier word is still waiting (R188). Asserting
`rst` abandons the command in progress and puts the block into its reset state at once (R180, R183); asserting it while it is 1 is a
release and a new reset in one act, so that the straps never change within a reset (93_implementation_defined.md U16, log 2). -/
def hostAct (c : Config) (s : State) : HostAct → List HostAct → State
  | .pause, rest => { s with script := rest }
  | .offer w, rest => match s.cmd with
    | none => { s with cmd := some w, script := rest }
    | some _ => s
  | .setReady ready, rest => { s with rspReady := ready, script := rest }
  | .assertReset sel seedIn, rest =>
    ({ s with rst := true, seedSel := sel, seedIn := seedIn, script := rest } : State).construct c
  | .releaseReset, rest => { s with rst := false, script := rest }

/-- The host's turn after a step of the block: the next act of its script, if there is one (log 2). -/
def hostTurn (c : Config) (s : State) : State :=
  match s.script with
  | [] => s
  | act :: rest => hostAct c s act rest

end Sys2Proof.Machine
end

