-- ==== Sys2Proof/Machine/Scrambler.lean ====
section
/-!
DEFINITION. CoreScrambler: the internal operation `XS.NEXT` (40_scrambler.md R80 to R92).
-/

namespace Sys2Proof.Machine

/-- `shl(a, k)`: left shift, bits above 63 dropped, zeros from below (00_scope.md R12, 40_scrambler.md R82). -/
def shl (a : Word) (k : Nat) : Word := a <<< k

/-- `shr(a, k)`: logical right shift, zeros from above (00_scope.md R12, 40_scrambler.md R82, decision D22). -/
def shr (a : Word) (k : Nat) : Word := a >>> k

/-- `mul64(a, b)`: the low 64 bits of the product (00_scope.md R12, 40_scrambler.md R83). -/
def mul64 (a b : Word) : Word := a * b

/-- A shift by a constant in a given direction. -/
def shiftBy (d : ShiftDir) (a : Word) (k : Nat) : Word :=
  match d with
  | .left => shl a k
  | .right => shr a k

/-- One shift-XOR stage: `x XOR shift(x, k)` (40_scrambler.md R81). -/
def shiftXor (d : ShiftDir) (k : Nat) (x : Word) : Word := x ^^^ shiftBy d x k

/-- `x1` of R81: after the first stage. -/
def stageA (c : Config) (x0 : Word) : Word := shiftXor c.dirA c.shA x0

/-- `x2` of R81: after the second stage. -/
def stageB (c : Config) (x1 : Word) : Word := shiftXor c.dirB c.shB x1

/-- `x3` of R81: after the third stage. -/
def stageC (c : Config) (x2 : Word) : Word := shiftXor c.dirC c.shC x2

/-- The state map `x0 -> x3`: what `XS.NEXT` stores in `STATE` (R81, R87). -/
def xsState (c : Config) (x0 : Word) : Word := stageC c (stageB c (stageA c x0))

/-- The output map `x3 -> word` (R81, R83, R87): never fed back. -/
def xsOutput (c : Config) (x3 : Word) : Word := mul64 x3 c.mult

/-- The raw word `XS.NEXT` returns from `STATE` = `x0` (R81). -/
def xsWord (c : Config) (x0 : Word) : Word := xsOutput c (xsState c x0)

end Sys2Proof.Machine
end

