-- ==== Sys2Proof/Machine/Whitener.lean ====
section
/-!
DEFINITION. WhiteningBuffer: the pair rule and `WB.WHITEN` (41_whitener.md R96, R97), the rule on a bit sequence (`VN`), and the serial
state machine of R105. `WB.REFILL` and `WB.NEXTBIT` as loops are in Machine/Reference.lean, as steps in Machine/Sequencer.lean.
-/

namespace Sys2Proof.Machine

/-- The Von Neumann rule for one pair `(a, b)`: the first bit if the two differ, nothing if they match (R96). -/
def pairYield (a b : Bit) : List Bit := if a = b then [] else [a]

/-- Bit `i` of a raw word (00_scope.md R11). -/
def wordBit (w : Word) (i : Nat) : Bit := w.getLsbD i

/-- What pair `p` of a raw word yields: bits `2p` and `2p+1`, the lower-numbered one first (20_memory.md R42, R46). -/
def pairOf (w : Word) (p : Nat) : List Bit := pairYield (wordBit w (2 * p)) (wordBit w (2 * p + 1))

/-- `WB.WHITEN(w)`, the group `G(w)`: the survivors of the `PAIRS` pairs in ascending order (R97). -/
def group (c : Config) (w : Word) : List Bit := (List.range c.pairs).flatMap (pairOf w)

/-- `VN(s)`: the same rule on a bit sequence, pair by pair from the front (R97). A last bit without a partner yields nothing; R97
defines `VN` on even lengths only. -/
def vn : List Bit → List Bit
  | a :: b :: rest => pairYield a b ++ vn rest
  | [_] => []
  | [] => []

/-- The 64 bits of a raw word, `w[0]` first (R97). -/
def wordBits (w : Word) : List Bit := (List.range 64).map (wordBit w)

/-- The serial whitening machine of R105: `HALF` and `FIRST`, and the bits it has output. -/
structure SerialVN where
  /-- `HALF`: holding the first bit of a pair. -/
  half : Bool
  /-- `FIRST`: the bit held. -/
  first : Bit
  /-- the outputs so far, in order. -/
  out : List Bit
deriving DecidableEq, Repr

/-- One input bit of the serial machine (R105). -/
def serialStep (m : SerialVN) (x : Bit) : SerialVN :=
  if m.half then
    { m with half := false, out := if x = m.first then m.out else m.out ++ [m.first] }
  else
    { m with half := true, first := x }

/-- The serial machine fed a list of bits (R105). -/
def serialRun (m : SerialVN) (xs : List Bit) : SerialVN := xs.foldl serialStep m

end Sys2Proof.Machine
end

