-- ==== Sys2Proof/Machine/Sequencer.lean ====
section
/-!
DEFINITION. The internal and reply steps of the sequencer: `NEED`, `FILL`, `CHECK`, `RESP` (44_sequencer.md R143 to R146). Step
`ACCEPT` (R142) is the meaning of each command, in the command files. A field a step does not mention keeps its value (R155).
-/

namespace Sys2Proof.Machine

/-- Take one bit into the accumulator: `b = FifoPop(); ACC[CNT] <- b; CNT <- CNT + 1` (R143). -/
def State.drawBit (s : State) (b : Bit) : State :=
  { s.fifoPop with acc := writeBit s.acc s.cnt.toNat b, cnt := s.cnt + 1 }

/-- Step `NEED`, its three tests in the order of R143. -/
def needStep (s : State) : Result :=
  if s.cnt = s.kreg then .next { s with phase := .check }
  else match s.q with
    | [] => .next { s with phase := .fill }
    | b :: _ => if s.cnt.toNat < 64 then .next (s.drawBit b) else .fault .packIndexOutOfRange

/-- One pull: `w = XS.NEXT(); FifoAppend(G(w))`, indivisible (R144, 20_memory.md R50). -/
def State.pull (c : Config) (s : State) : State :=
  { s.fifoAppend (group c (xsWord c s.state)) with state := xsState c s.state }

/-- Step `FILL`: one iteration of the refill loop (R144). -/
def fillStep (c : Config) (s : State) : Result :=
  if lowFlag c s.q then .next (s.pull c) else .next { s with phase := .need }

/-- `CHECK` for `BIT` and `PACK`: the pack is the result (R145). -/
def checkPack (s : State) : Result := .next (s.offerReply .okLast s.acc)

/-- `CHECK` for `BITS`: `REM` counts down, the status is by `REM` after the decrement (R145). -/
def checkBits (s : State) : Result :=
  if s.rem = 0 then .fault .remUnderflow
  else
    let rem := s.rem - 1
    .next ({ s with rem := rem }.offerReply (if rem = 0 then .okLast else .okMore) s.acc)

/-- `CHECK` for `BOUNDED`: the candidate is accepted, or a new attempt starts (R145). -/
def checkBounded (s : State) : Result :=
  if acceptFlag s.acc s.maxr then .next (s.offerReply .okLast s.acc) else .next s.restartPack

/-- Step `CHECK`, by `OPR` (R145). -/
def checkStep (s : State) : Result :=
  match s.opr.toFin with
  | 1 => checkPack s
  | 2 => checkBits s
  | 3 => checkPack s
  | 4 => checkBounded s
  | 0 => .fault .reservedOprAtCheck
  | 5 => .fault .reservedOprAtCheck
  | 6 => .fault .reservedOprAtCheck
  | 7 => .fault .reservedOprAtCheck

/-- After the beat in `RSP` is taken: the next bit of a `BITS`, or the command is over (R146). -/
def State.afterBeat (s : State) : State :=
  match s.rsp.status with
  | .okMore => s.restartPack
  | .okLast => s.endCommand
  | .doneEmpty => s.endCommand
  | .err => s.endCommand

/-- Step `RESP`: a transfer if the host takes the beat, else nothing changes (R146). -/
def respStep (s : State) : Result :=
  if s.rspReady then .next s.transfer.afterBeat else .next s

end Sys2Proof.Machine
end

