-- ==== Sys2Proof/Machine/Block.lean ====
section
/-!
DEFINITION. One step of the block: held in reset while `rst` = 1 (70_reset_and_hazards.md R180), else the one kind of step that
`PHASE` enables (44_sequencer.md R142 to R148).
-/

namespace Sys2Proof.Machine

/-- Step `ACCEPT`: the command word on the channel is transferred, decoded and accepted; with none offered nothing changes (R142). -/
def acceptStep (s : State) : Result :=
  match s.cmd with
  | none => .next s
  | some w => exec (decode w) s.takeCommand

/-- The block's step, by `rst` and `PHASE` (R180, R147, R148). -/
def blockStep (s : State) : Result :=
  if s.rst then .next (s.construct hw)
  else match s.phase with
    | .idle => acceptStep s
    | .need => needStep s
    | .fill => fillStep hw s
    | .check => checkStep s
    | .resp => respStep s

/-- A row of the opcode table brought onto the command channel (for `State.withFetchWord`); a number that is no 67-bit word cannot be
put there. -/
def State.withTableWord (s : State) (nbits w : Nat) : State :=
  match wordOfNat (tableNumber nbits w) with
  | .ok cw => s.withCommand cw
  | .error _ => s

end Sys2Proof.Machine
end

