-- ==== Sys2Proof/Machine/Step.lean ====
section
/-!
DEFINITION. One step of the machine: a step of the block, then the host's turn (log 2).
-/

namespace Sys2Proof.Machine

/-- The step: the block moves by the levels its ports have now, then the host does its next act. -/
def step (s : State) : Host.Outcome State Fault Refusal := mapNext (hostTurn hw) (blockStep s)

/-- The state in which the very next step accepts the command word that a row of the opcode table spells: the block is in `IDLE` out of
reset, and the host offers the word (log 8: there is no stored program, a command is executed as it is accepted, 20_memory.md R58). -/
def State.withFetchWord (s : State) (nbits w : Nat) : State := s.withTableWord nbits w

end Sys2Proof.Machine
end

