-- ==== Sys2Proof/Machine/Notation.lean ====
section
/-!
DEFINITION. The text form of commands (30_encoding.md R71 to R73): reading one line, the checks on its numbers, and what it stands for,
a command word or a reset. Text is a list of characters. A line that the rules do not give is rejected by name.
-/

namespace Sys2Proof.Machine

/-- Why a line is rejected. -/
inductive LineError where
  /-- The first word is no mnemonic, alias or directive (R71 to R73). -/
  | unknownMnemonic
  /-- Too few or too many operands for the mnemonic. -/
  | operandCount
  /-- An operand that spells no number, or a field of `.cmd` that is not `op=` and `arg=`. -/
  | notANumber
  /-- A number outside 0 to 2^64 − 1 (R71), or an `op` above 7 (R73). -/
  | numberOutOfRange
deriving DecidableEq, Repr

/-- What a line stands for (R73): a command word, a reset with its straps, or nothing. -/
inductive LineMeaning where
  | word (w : CmdWord)
  | reset (sel : Bool) (seedIn : Word)
  | nothing
deriving DecidableEq, Repr

/-- A `#` starts a comment that runs to the end of the line (R71). -/
def stripComment : List Char → List Char
  | [] => []
  | c :: rest => if c = '#' then [] else c :: stripComment rest

/-- White space between words. -/
def isBlank (c : Char) : Bool := c = ' ' || c = '\t' || c = '\n' || c = '\r'

/-- Lower case of a letter: mnemonics are lower case, upper case is accepted (R71; in any mixture, log 9). -/
def lowerChar (c : Char) : Char := if 'A' ≤ c ∧ c ≤ 'Z' then Char.ofNat (c.toNat + 32) else c

/-- The words of a line; the second argument is the word being read, reversed. -/
def splitWords : List Char → List Char → List (List Char)
  | [], [] => []
  | [], w => [w.reverse]
  | c :: rest, w =>
    if isBlank c then (if w = [] then splitWords rest [] else w.reverse :: splitWords rest [])
    else splitWords rest (c :: w)

/-- The value of a decimal or hexadecimal digit. -/
def digitValue (base : Nat) (c : Char) : Option Nat :=
  let v :=
    if '0' ≤ c ∧ c ≤ '9' then c.toNat - '0'.toNat
    else if 'a' ≤ lowerChar c ∧ lowerChar c ≤ 'f' then (lowerChar c).toNat - 'a'.toNat + 10
    else base
  if v < base then some v else none

/-- Digits after the value `acc` read so far. -/
def readDigits (base : Nat) : Nat → List Char → Option Nat
  | acc, [] => some acc
  | acc, c :: rest =>
    match digitValue base c with
    | none => none
    | some d => readDigits base (acc * base + d) rest

/-- A number: decimal, or hexadecimal with the prefix `0x` (R71). -/
def readNumber : List Char → Option Nat
  | [] => none
  | '0' :: 'x' :: [] => none
  | '0' :: 'x' :: ds => readDigits 16 0 ds
  | ds => readDigits 10 0 ds

/-- A word that must be a number. -/
def needNumber (w : List Char) : Except LineError Nat :=
  match readNumber w with
  | some n => .ok n
  | none => .error .notANumber

/-- No operand. -/
def takeNone (f : SourceLine) : List (List Char) → Except LineError SourceLine
  | [] => .ok f
  | _ :: _ => .error .operandCount

/-- Exactly one number. -/
def takeOne (f : Nat → SourceLine) : List (List Char) → Except LineError SourceLine
  | [w] => (needNumber w).map f
  | [] => .error .operandCount
  | _ :: _ :: _ => .error .operandCount

/-- At most one number. -/
def takeOptional (f : Option Nat → SourceLine) : List (List Char) → Except LineError SourceLine
  | [] => .ok (f none)
  | [w] => (needNumber w).map (fun n => f (some n))
  | _ :: _ :: _ => .error .operandCount

/-- The fields `op=<o> arg=<a>` of `.cmd` (R73). -/
def takeFields : List (List Char) → Except LineError SourceLine
  | ['o' :: 'p' :: '=' :: o, 'a' :: 'r' :: 'g' :: '=' :: a] =>
    match needNumber o, needNumber a with
    | .ok o, .ok a => .ok (.cmd o a)
    | .error e, _ => .error e
    | .ok _, .error e => .error e
  | [_, _] => .error .notANumber
  | [] => .error .operandCount
  | [_] => .error .operandCount
  | _ :: _ :: _ :: _ => .error .operandCount

/-- The mnemonics, aliases and directives of R71 to R73. -/
inductive Mnemonic where
  | bit
  | bits
  | pack
  | bounded
  | cmd
  | reset
  /-- `sample <max>`: the alias of `bounded` that takes its operand always (R72). -/
  | sample
deriving DecidableEq, Repr

/-- The spellings of R71 (mnemonics), R72 (aliases) and R73 (directives). -/
def mnemonicTable : List (List Char × Mnemonic) :=
  [ (['b', 'i', 't'], .bit),
    (['b', 'i', 't', 's'], .bits),
    (['p', 'a', 'c', 'k'], .pack),
    (['b', 'o', 'u', 'n', 'd', 'e', 'd'], .bounded) ] ++
  [ (['g', 'e', 'n', 'e', 'r', 'a', 't', 'e', '_', 'b', 'i', 't'], .bit),
    (['g', 'e', 'n', 'e', 'r', 'a', 't', 'e', '_', 'b', 'i', 't', 's'], .bits),
    (['p', 'a', 'c', 'k', '_', 'b', 'i', 't', 's'], .pack),
    (['g', 'e', 'n', 'e', 'r', 'a', 't', 'e', '_', 'b', 'o', 'u', 'n', 'd', 'e', 'd'], .bounded) ] ++
  [ (['n', 'e', 'x', 't', '_', 'b', 'i', 't'], .bit),
    (['s', 'a', 'm', 'p', 'l', 'e'], .sample),
    (['.', 'c', 'm', 'd'], .cmd),
    (['.', 'r', 'e', 's', 'e', 't'], .reset) ]

/-- A spelling looked up in the table. -/
def lookupMnemonic : List (List Char × Mnemonic) → List Char → Option Mnemonic
  | [], _ => none
  | (name, m) :: rest, w => if name = w then some m else lookupMnemonic rest w

/-- The operands that follow a mnemonic. -/
def readOperands (m : Mnemonic) (ws : List (List Char)) : Except LineError SourceLine :=
  match m with
  | .bit => takeNone .bit ws
  | .bits => takeOne .bits ws
  | .pack => takeOne .pack ws
  | .bounded => takeOptional .bounded ws
  | .cmd => takeFields ws
  | .reset => takeOptional .reset ws
  | .sample => takeOne (fun n => .bounded (some n)) ws

/-- One line of text (R71: one command per line). -/
def readLine (text : List Char) : Except LineError SourceLine :=
  match splitWords (stripComment text) [] with
  | [] => .ok .blank
  | w :: ws =>
    match lookupMnemonic mnemonicTable (w.map lowerChar) with
    | none => .error .unknownMnemonic
    | some m => readOperands m ws

/-- The command of a line that is one of the four mnemonics, with the default `max` of R72. -/
def lineInstr (c : Config) : SourceLine → Option Instr
  | .bit => some (.bit 0)
  | .bits n => some (.bits (BitVec.ofNat 64 n))
  | .pack k => some (.pack (BitVec.ofNat 64 k))
  | .bounded none => some (.bounded (BitVec.ofNat 64 c.defaultMax))
  | .bounded (some m) => some (.bounded (BitVec.ofNat 64 m))
  | .cmd _ _ => none
  | .reset _ => none
  | .blank => none

/-- What a line in range stands for (R71 to R73). -/
def lineMeaning (c : Config) (l : SourceLine) : LineMeaning :=
  match l with
  | .cmd op arg => .word (BitVec.ofNat 3 op ++ BitVec.ofNat 64 arg)
  | .reset none => .reset false 0
  | .reset (some seed) => .reset true (BitVec.ofNat 64 seed)
  | .blank => .nothing
  | .bit | .bits _ | .pack _ | .bounded _ =>
    match lineInstr c l with
    | some i => .word (encode i)
    | none => .nothing

/-- A line assembled: its numbers must be in range (R71, R73). -/
def assemble (c : Config) (l : SourceLine) : Except LineError LineMeaning :=
  if l.wellFormed then .ok (lineMeaning c l) else .error .numberOutOfRange

/-- A line of text assembled. -/
def assembleText (c : Config) (text : List Char) : Except LineError LineMeaning :=
  match readLine text with
  | .ok l => assemble c l
  | .error e => .error e

/-- What the host does for a line: offer its word, or a reset cycle with its straps (R73, 95_test_vectors.md section 7). -/
def lineActs : LineMeaning → List HostAct
  | .word w => [.offer w]
  | .reset sel seedIn => [.assertReset sel seedIn, .releaseReset]
  | .nothing => []

end Sys2Proof.Machine
end

