-- ==== Sys2Proof/Machine/Reference.lean ====
section
/-!
DEFINITION. The command-level semantics of files 40 to 43, the reference the step machine refines (44_sequencer.md R140, R149): the
pseudocode of `WB.REFILL`, `WB.NEXTBIT`, `PK.PACK`, `BS.SAMPLE` and the four commands over the architectural state alone (10_state.md
R20). No loop has a bound (R102, R130), so each runs under fuel; running out of fuel is `none`, "not finished", never a result. A
command ends from a state when SOME fuel gives a result. The parameters are an argument (U7, U19).
-/

namespace Sys2Proof.Machine

/-- The architectural state: `STATE` and `Q` (10_state.md R20). -/
structure Gen where
  state : Word
  q : List Bit
deriving DecidableEq, Repr

/-- The architectural state of a machine state (R20). -/
def State.gen (s : State) : Gen := ⟨s.state, s.q⟩

/-- One iteration of the refill loop: `w = XS.NEXT(); FifoAppend(G(w))` (41_whitener.md R98). -/
def genPull (c : Config) (g : Gen) : Gen := ⟨xsState c g.state, g.q ++ group c (xsWord c g.state)⟩

/-- `WB.REFILL`: `while len(Q) < THRESH` pull a word (R98). -/
def refill (c : Config) : Nat → Gen → Option Gen
  | 0, g => if lowFlag c g.q then none else some g
  | fuel + 1, g => if lowFlag c g.q then refill c fuel (genPull c g) else some g

/-- `FifoPop()`, evaluated only when `Q` is not empty (00_scope.md R14). -/
def genPop (g : Gen) : Option (Bit × Gen) :=
  match g.q with
  | [] => none
  | b :: rest => some (b, ⟨g.state, rest⟩)

/-- `WB.NEXTBIT`: refill first if `Q` is empty, then pop (R100). -/
def nextBit (c : Config) (fuel : Nat) (g : Gen) : Option (Bit × Gen) :=
  if emptyFlag g.q then (refill c fuel g).bind genPop else genPop g

/-- `j` performances of `WB.NEXTBIT` one after the other: the bits, in order (R107, 42_packer.md R116). -/
def takeBits (c : Config) (fuel : Nat) : Nat → Gen → Option (List Bit × Gen)
  | 0, g => some ([], g)
  | n + 1, g =>
    match nextBit c fuel g with
    | none => none
    | some (b, g') =>
      match takeBits c fuel n g' with
      | none => none
      | some (bs, g'') => some (b :: bs, g'')

/-- `r OR (b * 2^j)` (42_packer.md R116). -/
def orBit (r : Word) (j : Nat) (b : Bit) : Word := r ||| (bitWord b <<< j)

/-- The loop of `PK.PACK` with `n` bits still to draw, the next one for position `j`, and `r` so far (R116). -/
def packLoop (c : Config) (fuel : Nat) : Nat → Nat → Word → Gen → Option (Word × Gen)
  | 0, _, r, g => some (r, g)
  | n + 1, j, r, g =>
    match nextBit c fuel g with
    | none => none
    | some (b, g') => packLoop c fuel n (j + 1) (orBit r j b) g'

/-- `PK.PACK(k)` (R116). -/
def packBits (c : Config) (fuel k : Nat) (g : Gen) : Option (Word × Gen) := packLoop c fuel k 0 0 g

/-- The rejection loop: an attempt is a fresh candidate and its comparison with `max`; the first number is the attempts still allowed
by the fuel (43_sampler.md R128). -/
def sampleLoop (c : Config) (fuel width : Nat) (max : Word) : Nat → Gen → Option (Word × Gen)
  | 0, _ => none
  | attempts + 1, g =>
    match packBits c fuel width g with
    | none => none
    | some (v, g') => if acceptFlag v max then some (v, g') else sampleLoop c fuel width max attempts g'

/-- `BS.SAMPLE(max)` (R129). -/
def sample (c : Config) (fuel : Nat) (max : Word) (g : Gen) : Option (Word × Gen) :=
  if degenerateMax max then some (0, g) else sampleLoop c fuel (bitlen max) max fuel g

/-- The loop of `BITS` with `n` bits still owed: one beat a bit, the last one `OK_LAST` (41_whitener.md R107). -/
def bitsLoop (c : Config) (fuel : Nat) : Nat → Gen → Option (List Beat × Gen)
  | 0, g => some ([], g)
  | n + 1, g =>
    match nextBit c fuel g with
    | none => none
    | some (b, g') =>
      match bitsLoop c fuel n g' with
      | none => none
      | some (beats, g'') => some (⟨if n = 0 then .okLast else .okMore, bitWord b⟩ :: beats, g'')

/-- `BITS n` (R107, R108). -/
def refBits (c : Config) (fuel : Nat) (n : Word) (g : Gen) : Option (List Beat × Gen) :=
  if zeroCount n then some ([⟨.doneEmpty, 0⟩], g) else bitsLoop c fuel n.toNat g

/-- A result as the one beat `(OK_LAST, value)`. -/
def lastBeat (r : Word × Gen) : List Beat × Gen := ([⟨.okLast, r.1⟩], r.2)

/-- `BIT` (R106). -/
def refBit (c : Config) (fuel : Nat) (g : Gen) : Option (List Beat × Gen) :=
  (nextBit c fuel g).map (fun r => lastBeat (bitWord r.1, r.2))

/-- `PACK k` (42_packer.md R119, R120). -/
def refPack (c : Config) (fuel : Nat) (k : Word) (g : Gen) : Option (List Beat × Gen) :=
  if packTooLarge c k then some ([⟨.err, errArg⟩], g) else (packBits c fuel k.toNat g).map lastBeat

/-- `BOUNDED max` (43_sampler.md R135). -/
def refBounded (c : Config) (fuel : Nat) (max : Word) (g : Gen) : Option (List Beat × Gen) :=
  (sample c fuel max g).map lastBeat

/-- A reserved opcode (30_encoding.md R68). -/
def refReserved (g : Gen) : Option (List Beat × Gen) := some ([⟨.err, errOp⟩], g)

/-- A command run to its end: its reply beats in order and the architectural state after it; `none` is "not finished under this fuel". -/
def runCommand (c : Config) (fuel : Nat) (i : Instr) (g : Gen) : Option (List Beat × Gen) :=
  match i with
  | .bit _ => refBit c fuel g
  | .bits n => refBits c fuel n g
  | .pack k => refPack c fuel k g
  | .bounded max => refBounded c fuel max g
  | .reserved0 _ => refReserved g
  | .reserved5 _ => refReserved g
  | .reserved6 _ => refReserved g
  | .reserved7 _ => refReserved g

/-- A sequence of commands, each after the previous one's last beat (R150): all beats in order. -/
def runCommands (c : Config) (fuel : Nat) : List Instr → Gen → Option (List Beat × Gen)
  | [], g => some ([], g)
  | i :: rest, g =>
    match runCommand c fuel i g with
    | none => none
    | some (beats, g') =>
      match runCommands c fuel rest g' with
      | none => none
      | some (beats', g'') => some (beats ++ beats', g'')

/-- The architectural state after reset with given straps (R181, R182). -/
def genReset (c : Config) (sel : Bool) (seedIn : Word) : Gen := ⟨seedState c sel seedIn, []⟩

/-- `STATE` after `m` performances of `XS.NEXT` (20_memory.md R54). -/
def xsIter (c : Config) : Nat → Word → Word
  | 0, x => x
  | m + 1, x => xsIter c m (xsState c x)

/-- `G(w_1) ++ ... ++ G(w_m)`: the groups of the next `m` raw words from `STATE` = `x` (R54). -/
def stream (c : Config) : Nat → Word → List Bit
  | 0, _ => []
  | m + 1, x => group c (xsWord c x) ++ stream c m (xsState c x)

end Sys2Proof.Machine
end

