-- ==== Sys2Proof/Machine/Ring.lean ====
section
/-!
DEFINITION. The FIFO as hardware realises it (10_state.md R26, decision D15): 64 one-bit entries `FMEM`, a 6-bit `HEAD`, a 7-bit
`LEN`. Informative in the spec; the machine's State holds the sequence it represents. Statements say that it realises that sequence.
-/

namespace Sys2Proof.Machine

/-- `FMEM[0..63]`, `HEAD`, `LEN` (R26). -/
structure Ring where
  fmem : BitVec 64
  head : BitVec 6
  len : BitVec 7
deriving DecidableEq, Repr

/-- `FMEM[i]`. -/
def Ring.entry (r : Ring) (i : BitVec 6) : Bit := r.fmem.getLsbD i.toNat

/-- Index `(HEAD + j) mod 64`. -/
def Ring.index (r : Ring) (j : Nat) : BitVec 6 := r.head + BitVec.ofNat 6 j

/-- The sequence represented: `[FMEM[(HEAD + j) mod 64] for j = 0 .. LEN-1]` (R26). -/
def Ring.toQueue (r : Ring) : List Bit := (List.range r.len.toNat).map (fun j => r.entry (r.index j))

/-- `FMEM[i] <- b`. -/
def Ring.write (r : Ring) (i : BitVec 6) (b : Bit) : Ring := { r with fmem := writeBit r.fmem i.toNat b }

/-- `FifoPop()` returns `FMEM[HEAD]` and performs `HEAD <- (HEAD + 1) mod 64; LEN <- LEN - 1` (R26). -/
def Ring.pop (r : Ring) : Bit × Ring := (r.entry r.head, { r with head := r.head + 1, len := r.len - 1 })

/-- One more bit at the back: `FMEM[(HEAD + LEN) mod 64] <- b`, `LEN <- LEN + 1`. -/
def Ring.push (r : Ring) (b : Bit) : Ring :=
  let r1 := r.write (r.index r.len.toNat) b
  { r1 with len := r.len + 1 }

/-- `FifoAppend(L)`: the bits of `L` go in one after the other (R26). -/
def Ring.append (r : Ring) (l : List Bit) : Ring := l.foldl Ring.push r

/-- After reset: `LEN` = 0, `HEAD` = 0, `FMEM` unspecified, so that its contents are an argument (R35). -/
def Ring.reset (fmem : BitVec 64) : Ring := ⟨fmem, 0, 0⟩

/-- The ring stands for the FIFO of a state: the same sequence and the same `HEAD`. -/
def Ring.realises (r : Ring) (s : State) : Prop := r.toQueue = s.q ∧ r.head = s.head

end Sys2Proof.Machine
end

