-- ==== Sys2Proof/Safety.lean ====
section
/-!
DEFINITION. The terms claims are stated in: running several steps, the invariant of the block, the block's own part of a state, a host
that does not reset, the bits taken and the words pulled along a run, and the phase graph.
-/

namespace Sys2Proof.Machine

/-- `k` steps, stopping at the first fault or refusal (`Host.Core.run` of this machine, in its own words). -/
def runSteps : Nat → State → Result
  | 0, s => .next s
  | k + 1, s =>
    match step s with
    | .next t => runSteps k t
    | .fault r => .fault r
    | .refused r => .refused r

/-- `STATE` is never 0 (10_state.md R22). -/
abbrev State.scramblerInv (s : State) : Prop := s.state ≠ 0

/-- `len(Q)` is at most `FIFO_CAP` (10_state.md R25). -/
abbrev State.fifoInv (s : State) : Prop := s.q.length ≤ fifoCap hw

/-- `CNT <= KREG <= 64` (44_sequencer.md R143) and `ACC[63:CNT] = 0` (10_state.md R28). -/
abbrev State.packInv (s : State) : Prop :=
  s.cnt.toNat ≤ s.kreg.toNat ∧ s.kreg.toNat ≤ 64 ∧ s.acc.toNat < 2 ^ s.cnt.toNat

/-- A command is being carried out: `PHASE` is `NEED`, `FILL` or `CHECK`. -/
abbrev State.busy (s : State) : Prop := s.phase = .need ∨ s.phase = .fill ∨ s.phase = .check

/-- While a command is carried out `OPR` is not reserved, and the registers of that command hold what its acceptance put there
(44_sequencer.md R142, R145). -/
abbrev State.commandInv (s : State) : Prop :=
  s.busy →
    (s.opr = 1 ∨ s.opr = 2 ∨ s.opr = 3 ∨ s.opr = 4) ∧
    (s.opr = 1 → s.kreg = 1) ∧
    (s.opr = 2 → s.kreg = 1 ∧ s.rem ≠ 0) ∧
    (s.opr = 4 → 2 ≤ s.maxr.toNat ∧ s.kreg = boundedWidth s.maxr)

/-- `FILL` runs only while a bit is needed, and `CHECK` only when the pack is complete (44_sequencer.md R143). -/
abbrev State.phaseInv (s : State) : Prop :=
  (s.phase = .fill → s.cnt ≠ s.kreg) ∧ (s.phase = .check → s.cnt = s.kreg)

/-- The beat on offer has one of the shapes of 30_encoding.md R65 and R66; after an `OK_MORE` beat a `BITS` still owes a bit. -/
abbrev State.replyInv (s : State) : Prop :=
  s.phase = .resp →
    (s.rsp.status = .okMore → s.opr = 2 ∧ s.kreg = 1 ∧ s.rem ≠ 0 ∧ s.rsp.data.toNat ≤ 1) ∧
    (s.rsp.status = .doneEmpty → s.rsp.data = 0) ∧
    (s.rsp.status = .err → s.rsp.data = errOp ∨ s.rsp.data = errArg)

/-- While `rst` is 1 the block is in its reset state (70_reset_and_hazards.md R180). -/
abbrev State.resetInv (s : State) : Prop := s.rst = true → s = s.construct hw

/-- The invariant of the block. -/
abbrev State.Inv (s : State) : Prop :=
  s.scramblerInv ∧ s.fifoInv ∧ s.packInv ∧ s.commandInv ∧ s.phaseInv ∧ s.replyInv ∧ s.resetInv

/-- Two states agree on the block itself, registers and FIFO; the ports, the script and the record of beats may differ. -/
abbrev State.sameBlock (s t : State) : Prop :=
  s.state = t.state ∧ s.q = t.q ∧ s.head = t.head ∧ s.phase = t.phase ∧ s.opr = t.opr ∧ s.kreg = t.kreg ∧ s.cnt = t.cnt ∧
  s.acc = t.acc ∧ s.maxr = t.maxr ∧ s.rem = t.rem ∧ s.rsp = t.rsp

/-- The host never asserts reset: `rst` is 0 and no act of the script asserts it. -/
def HostAct.isReset : HostAct → Bool
  | .pause => false
  | .offer _ => false
  | .setReady _ => false
  | .assertReset _ _ => true
  | .releaseReset => false

/-- The command word of an offer. -/
def HostAct.word? : HostAct → Option CmdWord
  | .pause => none
  | .offer w => some w
  | .setReady _ => none
  | .assertReset _ _ => none
  | .releaseReset => none

/-- No reset now, and none in the script. -/
abbrev State.noReset (s : State) : Prop := s.rst = false ∧ s.script.all (fun a => !a.isReset) = true

/-- The bits the next step pops from `Q`, in order: one in `NEED` when a bit is wanted and there is one (44_sequencer.md R143). -/
def State.poppedBy (s : State) : List Bit :=
  if s.rst = false ∧ s.phase = .need ∧ s.cnt ≠ s.kreg then s.q.take 1 else []

/-- How many raw words the next step pulls: one in `FILL` while `Q` is low (44_sequencer.md R144). -/
def State.pulledBy (s : State) : Nat := if s.rst = false ∧ s.phase = .fill ∧ lowFlag hw s.q then 1 else 0

/-- The bits popped along `k` steps, in order (20_memory.md R54). -/
def poppedIn : Nat → State → List Bit
  | 0, _ => []
  | k + 1, s =>
    match step s with
    | .next t => s.poppedBy ++ poppedIn k t
    | .fault _ => []
    | .refused _ => []

/-- The number of `XS.NEXT` performed along `k` steps (20_memory.md R54). -/
def pulledIn : Nat → State → Nat
  | 0, _ => 0
  | k + 1, s =>
    match step s with
    | .next t => s.pulledBy + pulledIn k t
    | .fault _ => 0
    | .refused _ => 0

/-- The phase graph of 44_sequencer.md R151, edge by edge, and the two holds of R147 (`IDLE` with no command, `RESP` not taken). -/
def phaseEdge : Phase → Phase → Bool
  | .idle, .need => true
  | .idle, .resp => true
  | .idle, .idle => true
  | .need, .need => true
  | .need, .fill => true
  | .need, .check => true
  | .fill, .fill => true
  | .fill, .need => true
  | .check, .resp => true
  | .check, .need => true
  | .resp, .need => true
  | .resp, .idle => true
  | .resp, .resp => true
  | .idle, .fill => false
  | .idle, .check => false
  | .need, .idle => false
  | .need, .resp => false
  | .fill, .idle => false
  | .fill, .check => false
  | .fill, .resp => false
  | .check, .idle => false
  | .check, .fill => false
  | .check, .check => false
  | .resp, .fill => false
  | .resp, .check => false

/-- A host that takes every beat at once and does nothing else. -/
abbrev State.attentive (s : State) : Prop := s.rst = false ∧ s.rspReady = true ∧ s.script = []

/-- The command words the host still has to hand over: the one waiting on the channel, then those of its script, decoded. -/
def State.offered (s : State) : List Instr :=
  (s.cmd.toList ++ s.script.filterMap HostAct.word?).map decode

/-- The beats of a `BITS` that delivers these bits (41_whitener.md R107). -/
def bitsBeats : List Bit → List Beat
  | [] => []
  | [b] => [⟨.okLast, bitWord b⟩]
  | b :: b' :: rest => ⟨.okMore, bitWord b⟩ :: bitsBeats (b' :: rest)

/-- The value of a list of bits, first bit in bit 0 (42_packer.md R116: the sum of `b_j * 2^j`). -/
def bitsValue : List Bit → Nat
  | [] => 0
  | b :: rest => (if b then 1 else 0) + 2 * bitsValue rest

end Sys2Proof.Machine
end

