-- ==== Sys2Proof/Certificates/Slice0/Obligations.lean ====
section
/-!
DEFINITION. The statements for the provers, each named for what it says. They follow the numbered rules of spec/.
-/

open Sys2Proof Sys2Proof.Machine

/-! ## Encoding -/

/-- R61, R74: decoding an encoded command gives it back with every operand, and encoding a decoded word gives the word back. -/
def Obligations.DecodeEncodeRoundTrip : Prop :=
  (∀ i : Instr, i.wellFormed = true → decode (encode i) = i) ∧ (∀ w : CmdWord, encode (decode w) = w)

/-- R74: match and mask of every row, mask 0x70000000000000000. -/
def Obligations.OpcodeMapByMask : Prop :=
  ∀ w : CmdWord,
    (w &&& 0x70000000000000000#67 = 0x10000000000000000#67 ↔ decode w = .bit (argField w)) ∧
    (w &&& 0x70000000000000000#67 = 0x20000000000000000#67 ↔ decode w = .bits (argField w)) ∧
    (w &&& 0x70000000000000000#67 = 0x30000000000000000#67 ↔ decode w = .pack (argField w)) ∧
    (w &&& 0x70000000000000000#67 = 0x40000000000000000#67 ↔ decode w = .bounded (argField w)) ∧
    (w &&& 0x70000000000000000#67 = 0x00000000000000000#67 ↔ decode w = .reserved0 (argField w)) ∧
    (w &&& 0x70000000000000000#67 = 0x50000000000000000#67 ↔ decode w = .reserved5 (argField w)) ∧
    (w &&& 0x70000000000000000#67 = 0x60000000000000000#67 ↔ decode w = .reserved6 (argField w)) ∧
    (w &&& 0x70000000000000000#67 = 0x70000000000000000#67 ↔ decode w = .reserved7 (argField w))

/-- R61: a command word is its two fields and nothing else, for words and for encoded commands. -/
def Obligations.CommandWordFields : Prop :=
  (∀ w : CmdWord, w.toNat = (opField w).toNat * 2 ^ 64 + (argField w).toNat) ∧
  (∀ i : Instr, (encode i).toNat = (opcodeOf i).toNat * 2 ^ 64 + (operandOf i).toNat)

/-- 95_test_vectors.md V48: words spelled out from R61 and R63, one or more for every value of `op`. -/
def Obligations.SpelledWordsDecode : Prop :=
  decode 0x10000000000000000#67 = .bit 0 ∧ decode 0x1000000000000DEAD#67 = .bit 0xDEAD ∧
  decode 0x20000000000000008#67 = .bits 8 ∧ decode 0x30000000000000041#67 = .pack 65 ∧
  decode 0x4FFFFFFFFFFFFFFFF#67 = .bounded 0xFFFFFFFFFFFFFFFF ∧ decode 0x00000000000000000#67 = .reserved0 0 ∧
  decode 0x50000000000000000#67 = .reserved5 0 ∧ decode 0x60000000000000001#67 = .reserved6 1 ∧
  decode 0x70000000000000123#67 = .reserved7 0x123

/-- R64 with the codes of R65: a reply beat on the wires is its two fields, and can be read back. -/
def Obligations.ReplyBeatFields : Prop :=
  (∀ b : Beat, (beatWord b).toNat = (statusBits b.status).toNat * 2 ^ 64 + b.data.toNat ∧ beatOfWord (beatWord b) = b) ∧
  (∀ w : RspWord, beatWord (beatOfWord w) = w) ∧
  statusBits .okLast = 0 ∧ statusBits .okMore = 1 ∧ statusBits .doneEmpty = 2 ∧ statusBits .err = 3

/-- R71 to R73: the words of the four mnemonics, the default `max`, the raw word of `.cmd`, the straps of `.reset`, and the ranges.
The model's choice (log 9): that a number of 2^64 or more, or an `op` of 8 or more, is rejected, and under which name; and the value 0 of
`seed_in` for a `.reset` without a seed. -/
def Obligations.TextFormAssembles : Prop :=
  assemble hw .bit = .ok (.word (encode (.bit 0))) ∧
  assemble hw (.bounded none) = assemble hw (.bounded (some 256)) ∧
  assemble hw (.reset none) = .ok (.reset false 0) ∧
  (∀ n : Nat, n < 2 ^ 64 →
    assemble hw (.bits n) = .ok (.word (encode (.bits (BitVec.ofNat 64 n)))) ∧
    assemble hw (.pack n) = .ok (.word (encode (.pack (BitVec.ofNat 64 n)))) ∧
    assemble hw (.bounded (some n)) = .ok (.word (encode (.bounded (BitVec.ofNat 64 n)))) ∧
    assemble hw (.reset (some n)) = .ok (.reset true (BitVec.ofNat 64 n)) ∧
    ∀ o : Nat, o < 8 → ∃ w : CmdWord, assemble hw (.cmd o n) = .ok (.word w) ∧ w.toNat = o * 2 ^ 64 + n) ∧
  (∀ n : Nat, 2 ^ 64 ≤ n →
    assemble hw (.bits n) = .error .numberOutOfRange ∧ assemble hw (.pack n) = .error .numberOutOfRange ∧
    assemble hw (.bounded (some n)) = .error .numberOutOfRange ∧ assemble hw (.reset (some n)) = .error .numberOutOfRange ∧
    ∀ o : Nat, assemble hw (.cmd o n) = .error .numberOutOfRange) ∧
  (∀ o n : Nat, 8 ≤ o → assemble hw (.cmd o n) = .error .numberOutOfRange)

/-! ## CoreScrambler -/

/-- R81, R83 in integers (R12): the three stages, what `STATE` becomes, and the raw word. -/
def Obligations.ScramblerNextWord : Prop :=
  ∀ x : Word,
    let x0 := x.toNat
    let x1 := x0 ^^^ (x0 * 2 ^ 12 % 2 ^ 64)
    let x2 := x1 ^^^ (x1 / 2 ^ 25)
    let x3 := x2 ^^^ (x2 * 2 ^ 27 % 2 ^ 64)
    (xsState hw x).toNat = x3 ∧ (xsWord hw x).toNat = x3 * 2685821657736338717 % 2 ^ 64

/-- R82: the shifts and the three stages bit by bit. -/
def Obligations.ScramblerBitByBit : Prop :=
  (∀ (x : Word) (k i : Nat), 0 < k → k < 64 → i < 64 →
    wordBit (shl x k) i = (if k ≤ i then wordBit x (i - k) else false) ∧
    wordBit (shr x k) i = (if i ≤ 63 - k then wordBit x (i + k) else false)) ∧
  (∀ (x : Word) (i : Nat), i < 64 →
    wordBit (stageA hw x) i = (if i < 12 then wordBit x i else wordBit x i ^^ wordBit x (i - 12)) ∧
    wordBit (stageB hw x) i = (if i ≤ 38 then wordBit x i ^^ wordBit x (i + 25) else wordBit x i) ∧
    wordBit (stageC hw x) i = (if i < 27 then wordBit x i else wordBit x i ^^ wordBit x (i - 27)))

/-- R86, R87 of this hardware: `STATE` stays non-zero, both maps are bijections, every raw word of a non-zero state is non-zero, and
distinct states give distinct words. -/
def Obligations.ScramblerBijectiveNonzero : Prop :=
  Function.Bijective (xsState hw) ∧ Function.Bijective (xsOutput hw) ∧
  (∀ x : Word, x ≠ 0 → xsState hw x ≠ 0 ∧ xsWord hw x ≠ 0) ∧
  (∀ x3 : Word, xsOutput hw x3 = 0 ↔ x3 = 0) ∧
  (∀ x y : Word, xsWord hw x = xsWord hw y → x = y)

/-- 93_implementation_defined.md U19: the same for any shift amounts in 1..63, any directions and any odd multiplier. -/
def Obligations.ScramblerAnyParameters : Prop :=
  ∀ c : Config, c.wellFormed = true →
    Function.Bijective (xsState c) ∧ Function.Bijective (xsOutput c) ∧ xsState c 0 = 0 ∧ xsOutput c 0 = 0 ∧
    ∀ x : Word, x ≠ 0 → xsState c x ≠ 0 ∧ xsWord c x ≠ 0

/-- R88: `STATE` = 0 is a fixed point that gives the word 0, and a refill from there never ends. -/
def Obligations.ScramblerZeroStuck : Prop :=
  xsState hw 0 = 0 ∧ xsWord hw 0 = 0 ∧ ∀ fuel : Nat, refill hw fuel ⟨0, []⟩ = none

/-! ## WhiteningBuffer -/

/-- R96, R97: the pair rule, the group as the survivors in ascending order, its length, and `G(w) = VN([w[0], ..., w[63]])`. -/
def Obligations.GroupIsSurvivors : Prop :=
  (pairYield false false = [] ∧ pairYield false true = [false] ∧ pairYield true false = [true] ∧ pairYield true true = []) ∧
  ∀ w : Word,
    group hw w = ((List.range 32).filter (fun p => wordBit w (2 * p) != wordBit w (2 * p + 1))).map (fun p => wordBit w (2 * p)) ∧
    (group hw w).length = (List.range 32).countP (fun p => wordBit w (2 * p) != wordBit w (2 * p + 1)) ∧
    (group hw w).length ≤ 32 ∧
    group hw w = vn (wordBits w)

/-- R105: the serial machine, fed the bits of a word, outputs the group of the word and is back in its waiting phase, whatever `FIRST`
held before. -/
def Obligations.SerialWhiteningAgrees : Prop :=
  ∀ (w : Word) (first : Bit),
    (serialRun ⟨false, first, []⟩ (wordBits w)).out = group hw w ∧ (serialRun ⟨false, first, []⟩ (wordBits w)).half = false

/-- R98, R101: a refill that ends from an empty `Q` pulled at least one word, left 32 to 63 bits, and left exactly the groups of the
words it pulled. -/
def Obligations.RefillBounds : Prop :=
  ∀ (fuel : Nat) (g g' : Gen), g.q = [] → refill hw fuel g = some g' →
    32 ≤ g'.q.length ∧ g'.q.length ≤ 63 ∧
    ∃ m : Nat, 1 ≤ m ∧ g'.state = xsIter hw m g.state ∧ g'.q = stream hw m g.state

/-- R99, R100: a bit is taken from a `Q` of 1 to 31 bits without a refill; from an empty `Q` the refill comes first and leaves 32 bits
or more, and the bit is the first of what it left. -/
def Obligations.RefillOnlyWhenEmpty : Prop :=
  (∀ (fuel : Nat) (x : Word) (b : Bit) (rest : List Bit), nextBit hw fuel ⟨x, b :: rest⟩ = some (b, ⟨x, rest⟩)) ∧
  (∀ (fuel : Nat) (x : Word) (b : Bit) (g' : Gen), nextBit hw fuel ⟨x, []⟩ = some (b, g') →
    refill hw fuel ⟨x, []⟩ = some ⟨g'.state, b :: g'.q⟩ ∧ 32 ≤ (b :: g'.q).length) ∧
  (∀ (fuel : Nat) (x : Word), refill hw fuel ⟨x, []⟩ = none ↔ nextBit hw fuel ⟨x, []⟩ = none)

/-- R26: the ring of 64 entries realises the FIFO, whatever its dead entries hold: after reset, under a pop, and under an append that
fits; and the entries of the live window are those the state's view gives. -/
def Obligations.RingRealisesFifo : Prop :=
  (∀ (s : State) (fmem : BitVec 64), s.q = [] → s.head = 0 → (Ring.reset fmem).realises s) ∧
  ∀ (r : Ring) (s : State), r.realises s → s.q.length ≤ 64 →
    r.len.toNat = s.len ∧
    (∀ (i : BitVec 6) (b : Bit), s.fmem i = some b → r.entry i = b) ∧
    (∀ (b : Bit) (rest : List Bit), s.q = b :: rest → r.pop.1 = b ∧ r.pop.2.realises s.fifoPop) ∧
    (∀ l : List Bit, s.q.length + l.length ≤ 64 → (r.append l).realises (s.fifoAppend l))

/-! ## BitPacker and BoundedSampler, command level -/

/-- R116: a pack that ends takes exactly the next `k` bits of the whitened stream, the first in bit 0, and its result is below 2^k. -/
def Obligations.PackTakesNextBits : Prop :=
  ∀ (fuel k : Nat) (g g' : Gen) (r : Word), k ≤ 64 → packBits hw fuel k g = some (r, g') →
    r.toNat < 2 ^ k ∧
    ∃ (bs : List Bit) (m : Nat), bs.length = k ∧ r.toNat = bitsValue bs ∧
      bs ++ g'.q = g.q ++ stream hw m g.state ∧ g'.state = xsIter hw m g.state

/-- R121: `BIT` is `PACK 1`; `BITS n` is `n` times `PACK 1` but for the statuses; `PACK k` is the value of the bits of `BITS k`. -/
def Obligations.BitBitsPackAgree : Prop :=
  (∀ (fuel : Nat) (a : Word) (g : Gen), runCommand hw fuel (.bit a) g = runCommand hw fuel (.pack 1) g) ∧
  (∀ (fuel : Nat) (n : Word) (g g' : Gen) (bs : List Beat), n ≠ 0 → runCommand hw fuel (.bits n) g = some (bs, g') →
    runCommands hw fuel (List.replicate n.toNat (.pack 1)) g = some (bs.map (fun b => ⟨.okLast, b.data⟩), g')) ∧
  (∀ (fuel : Nat) (k : Word) (g g' : Gen) (bs : List Beat), k.toNat ≤ 64 →
    runCommand hw fuel (.bits k) g = some (bs, g') →
    runCommand hw fuel (.pack k) g =
      some ([⟨.okLast, BitVec.ofNat 64 (bitsValue (bs.map (fun b => b.data != 0)))⟩], g'))

/-- R127, R133: `bitlen` is the width of `max` itself; for `max >= 2` it is a legal pack operand; it differs from the width of
`max − 1` exactly at the powers of two. -/
def Obligations.WidthOfMax : Prop :=
  ∀ max : Word, 1 ≤ max.toNat →
    2 ^ (bitlen max - 1) ≤ max.toNat ∧ max.toNat < 2 ^ bitlen max ∧
    (2 ≤ max.toNat → 2 ≤ bitlen max ∧ bitlen max ≤ 64 ∧ (boundedWidth max).toNat = bitlen max ∧
      (bitlen max ≠ bitlen (max - 1) ↔ ∃ m : Nat, max.toNat = 2 ^ m))

/-- R131: the range of the result, with the exception of `max` = 0. -/
def Obligations.SampleBelowMax : Prop :=
  ∀ (fuel : Nat) (max v : Word) (g g' : Gen), sample hw fuel max g = some (v, g') →
    (1 ≤ max.toNat → v.toNat < max.toNat) ∧ (max.toNat ≤ 1 → v = 0 ∧ g' = g)

/-- R132, R128: a sample that ends after some attempts takes the width of each of them from the stream, the earlier candidates at or
above `max` and the last one the result; with `max <= 1` it takes nothing. -/
def Obligations.SampleTakesWholeAttempts : Prop :=
  ∀ (fuel : Nat) (max v : Word) (g g' : Gen), sample hw fuel max g = some (v, g') →
    (max.toNat ≤ 1 → g' = g) ∧
    (2 ≤ max.toNat → ∃ (rejected : List (List Bit)) (last : List Bit) (m : Nat),
      (∀ bs ∈ rejected, bs.length = bitlen max ∧ max.toNat ≤ bitsValue bs) ∧
      last.length = bitlen max ∧ bitsValue last = v.toNat ∧ v.toNat < max.toNat ∧
      rejected.flatten ++ last ++ g'.q = g.q ++ stream hw m g.state ∧ g'.state = xsIter hw m g.state)

/-- R49: the operand values that consume nothing and change no architectural state, with their replies. -/
def Obligations.ZeroConsumptionCommands : Prop :=
  ∀ (fuel : Nat) (g : Gen),
    runCommand hw fuel (.pack 0) g = some ([⟨.okLast, 0⟩], g) ∧
    runCommand hw fuel (.bits 0) g = some ([⟨.doneEmpty, 0⟩], g) ∧
    runCommand hw fuel (.bounded 0) g = some ([⟨.okLast, 0⟩], g) ∧
    runCommand hw fuel (.bounded 1) g = some ([⟨.okLast, 0⟩], g) ∧
    (∀ k : Word, 64 < k.toNat → runCommand hw fuel (.pack k) g = some ([⟨.err, 2⟩], g)) ∧
    (∀ a : Word, runCommand hw fuel (.reserved0 a) g = some ([⟨.err, 1⟩], g) ∧
      runCommand hw fuel (.reserved5 a) g = some ([⟨.err, 1⟩], g) ∧
      runCommand hw fuel (.reserved6 a) g = some ([⟨.err, 1⟩], g) ∧
      runCommand hw fuel (.reserved7 a) g = some ([⟨.err, 1⟩], g))

/-- R66, R75: the reply of every command that ends: its beats but the last are `OK_MORE`, the last is not; `BITS n` has `n` beats of one
bit; a `PACK k` datum is below 2^k and a `BOUNDED max` datum below `max`. -/
def Obligations.ReplyShapes : Prop :=
  ∀ (fuel : Nat) (i : Instr) (g g' : Gen) (beats : List Beat), runCommand hw fuel i g = some (beats, g') →
    (∃ (front : List Beat) (last : Beat), beats = front ++ [last] ∧ (∀ b ∈ front, b.status = .okMore) ∧ last.status ≠ .okMore) ∧
    (∀ n : Word, i = .bits n → n ≠ 0 →
      beats.length = n.toNat ∧ (∀ b ∈ beats, b.data.toNat ≤ 1 ∧ (b.status = .okMore ∨ b.status = .okLast))) ∧
    (∀ k : Word, i = .pack k → k.toNat ≤ 64 → ∃ v : Word, beats = [⟨.okLast, v⟩] ∧ v.toNat < 2 ^ k.toNat) ∧
    (∀ max : Word, i = .bounded max → ∃ v : Word, beats = [⟨.okLast, v⟩] ∧ (1 ≤ max.toNat → v.toNat < max.toNat)) ∧
    (∀ a : Word, i = .bit a → ∃ v : Word, beats = [⟨.okLast, v⟩] ∧ v.toNat ≤ 1)

/-- R55, U7: the replies of a whole command sequence from reset do not depend on the refill threshold. -/
def Obligations.RepliesIndependentOfThreshold : Prop :=
  ∀ (n fuel fuel' : Nat) (sel : Bool) (seedIn : Word) (is : List Instr) (beats beats' : List Beat) (g g' : Gen), 1 ≤ n →
    runCommands hw fuel is (genReset hw sel seedIn) = some (beats, g) →
    runCommands { hw with thresh := n } fuel' is (genReset { hw with thresh := n } sel seedIn) = some (beats', g') →
    beats = beats'

/-! ## The step machine -/

/-- R142: step `ACCEPT`, by `op`, in a block in `IDLE`; every register not named keeps its value (R155). -/
def Obligations.AcceptEachCommand : Prop :=
  ∀ (s : State) (a : Word), s.phase = .idle →
    exec (.bit a) s = .next { s with opr := 1, kreg := 1, cnt := 0, acc := 0, phase := .need } ∧
    exec (.bits a) s = .next (if a = 0 then { s with opr := 2, rem := a, rsp := ⟨.doneEmpty, 0⟩, phase := .resp }
      else { s with opr := 2, rem := a, kreg := 1, cnt := 0, acc := 0, phase := .need }) ∧
    exec (.pack a) s = .next (if 64 < a.toNat then { s with opr := 3, rsp := ⟨.err, 2⟩, phase := .resp }
      else { s with opr := 3, kreg := BitVec.ofNat 7 a.toNat, cnt := 0, acc := 0, phase := .need }) ∧
    exec (.bounded a) s = .next (if a.toNat ≤ 1 then { s with opr := 4, rsp := ⟨.okLast, 0⟩, phase := .resp }
      else { s with opr := 4, maxr := a, kreg := BitVec.ofNat 7 (bitlen a), cnt := 0, acc := 0, phase := .need }) ∧
    exec (.reserved0 a) s = .next { s with opr := 0, rsp := ⟨.err, 1⟩, phase := .resp } ∧
    exec (.reserved5 a) s = .next { s with opr := 5, rsp := ⟨.err, 1⟩, phase := .resp } ∧
    exec (.reserved6 a) s = .next { s with opr := 6, rsp := ⟨.err, 1⟩, phase := .resp } ∧
    exec (.reserved7 a) s = .next { s with opr := 7, rsp := ⟨.err, 1⟩, phase := .resp }

/-- R58, R142: in `IDLE` out of reset with a word on the channel, the step takes the word and is `exec` of the command it decodes to,
then the host's turn; with no word nothing changes but by the host's turn. The host's turn is the model's (log 2). -/
def Obligations.StepRunsDecodedCommand : Prop :=
  ∀ s : State, s.rst = false → s.phase = .idle →
    (∀ (w : CmdWord) (i : Instr), s.cmd = some w → decode w = i →
      step s = mapNext (hostTurn hw) (exec i { s with cmd := none })) ∧
    (s.cmd = none → step s = .next (hostTurn hw s))

/-- R143: step `NEED`. The host's turn after it is the model's (log 2). -/
def Obligations.NeedStepRule : Prop :=
  ∀ s : State, s.rst = false → s.phase = .need →
    (s.cnt = s.kreg → step s = .next (hostTurn hw { s with phase := .check })) ∧
    (s.cnt ≠ s.kreg → s.q = [] → step s = .next (hostTurn hw { s with phase := .fill })) ∧
    (∀ (b : Bit) (rest : List Bit), s.cnt ≠ s.kreg → s.q = b :: rest → s.cnt.toNat ≤ 63 →
      ∃ t : State, step s = .next (hostTurn hw t) ∧
        t = { s with q := rest, head := s.head + 1, acc := t.acc, cnt := s.cnt + 1 } ∧
        ∀ i : Nat, i < 64 → wordBit t.acc i = (if i = s.cnt.toNat then b else wordBit s.acc i))

/-- R144: step `FILL`, the pull and the append of its whole group in one step. The host's turn after it is the model's (log 2). -/
def Obligations.FillStepRule : Prop :=
  ∀ s : State, s.rst = false → s.phase = .fill →
    (32 ≤ s.q.length → step s = .next (hostTurn hw { s with phase := .need })) ∧
    (s.q.length < 32 →
      step s = .next (hostTurn hw { s with state := xsState hw s.state, q := s.q ++ group hw (xsWord hw s.state) }))

/-- R145: step `CHECK`, by `OPR`. The host's turn after it is the model's (log 2). -/
def Obligations.CheckStepRule : Prop :=
  ∀ s : State, s.rst = false → s.phase = .check →
    (s.opr = 1 ∨ s.opr = 3 → step s = .next (hostTurn hw { s with rsp := ⟨.okLast, s.acc⟩, phase := .resp })) ∧
    (s.opr = 2 → s.rem ≠ 0 → step s = .next (hostTurn hw
      { s with rem := s.rem - 1, rsp := ⟨if s.rem = 1 then .okLast else .okMore, s.acc⟩, phase := .resp })) ∧
    (s.opr = 4 → s.acc.toNat < s.maxr.toNat → step s = .next (hostTurn hw { s with rsp := ⟨.okLast, s.acc⟩, phase := .resp })) ∧
    (s.opr = 4 → s.maxr.toNat ≤ s.acc.toNat → step s = .next (hostTurn hw { s with cnt := 0, acc := 0, phase := .need }))

/-- R146: step `RESP`, the transfer of the beat in `RSP`, and the hold while the host does not take it. The host's turn after
it is the model's (log 2). -/
def Obligations.RespStepRule : Prop :=
  ∀ s : State, s.rst = false → s.phase = .resp →
    (s.rspReady = false → step s = .next (hostTurn hw s)) ∧
    (s.rspReady = true → s.rsp.status = .okMore →
      step s = .next (hostTurn hw { s with sent := s.sent ++ [s.rsp], cnt := 0, acc := 0, phase := .need })) ∧
    (s.rspReady = true → s.rsp.status ≠ .okMore →
      step s = .next (hostTurn hw { s with sent := s.sent ++ [s.rsp], phase := .idle }))

/-- R60, R180: `cmd_ready` and `rsp_valid` as functions of the state, both 0 while `rst` = 1, and `rsp` the beat in `RSP` while it is
valid. The model's choice (log 4): that `rsp` has no value while `rsp_valid` = 0, where R60 says only that it is unspecified. -/
def Obligations.OutputPortsFollowPhase : Prop :=
  ∀ s : State,
    (s.rst = false → (s.cmdReady = true ↔ s.phase = .idle) ∧ (s.rspValid = true ↔ s.phase = .resp)) ∧
    (s.rst = true → s.cmdReady = false ∧ s.rspValid = false) ∧
    (s.rspValid = true → s.rspOut = some (beatWord s.rsp)) ∧ (s.rspValid = false → s.rspOut = none)

/-- R188, R60: the two channels transfer only at a step at which valid and ready are both 1; a word that waits is not lost. `sent` is the
model's record (log 3), and a host with acts left may offer again at once (log 2). -/
def Obligations.HandshakeTransfers : Prop :=
  ∀ s t : State, step s = .next t →
    (∀ w : CmdWord, s.cmd = some w → s.cmdReady = false → t.cmd = some w) ∧
    ((s.rspValid && s.rspReady) = true → t.sent = s.sent ++ [s.rsp]) ∧
    ((s.rspValid && s.rspReady) = false → t.sent = s.sent) ∧
    (s.cmdReady = true → s.script = [] → t.cmd = none)

/-- R151: no step takes `PHASE` along an edge that is not in the graph (a reset aside). -/
def Obligations.PhaseGraph : Prop :=
  ∀ s t : State, s.rst = false → t.rst = false → step s = .next t → phaseEdge s.phase t.phase = true

/-- R21, R23, R24, R37, R50: a step out of reset either leaves `STATE` and `Q` alone, or pops one bit from the front of `Q`, or performs
one `XS.NEXT` and appends the whole group of its word at the back. -/
def Obligations.ScramblerAndFifoWriters : Prop :=
  ∀ s t : State, s.rst = false → t.rst = false → step s = .next t →
    (t.state = s.state ∧ t.q = s.q ∧ t.head = s.head) ∨
    (s.phase = .need ∧ t.state = s.state ∧ t.head = s.head + 1 ∧ ∃ b : Bit, s.q = b :: t.q) ∨
    (s.phase = .fill ∧ s.q.length < 32 ∧ t.state = xsState hw s.state ∧ t.q = s.q ++ group hw (xsWord hw s.state) ∧
      t.head = s.head)

/-! ## Each command run to its end -/

/-- R106: `BIT` with a bit in `Q`: the bit leaves the front of `Q` and is the one reply beat. -/
def Obligations.BitCompletes : Prop :=
  ∀ (s : State) (a : Word) (b : Bit) (rest : List Bit), s.attentive → s.phase = .idle → s.q = b :: rest →
    ∃ t : State, exec (.bit a) s = .next t ∧
      runSteps 4 t = .next { s with
        opr := 1, kreg := 1, cnt := 1, acc := bitWord b, q := rest, head := s.head + 1,
        rsp := ⟨.okLast, bitWord b⟩, sent := s.sent ++ [⟨.okLast, bitWord b⟩] }

/-- R107, R108: `BITS n` with `n` bits in `Q`: the bits in order, one beat each; `BITS 0` is the one beat `(DONE_EMPTY, 0)`. -/
def Obligations.BitsCompletes : Prop :=
  ∀ (s : State) (n : Word), s.attentive → s.phase = .idle → n.toNat ≤ s.q.length →
    (n = 0 → ∃ t : State, exec (.bits n) s = .next t ∧
      runSteps 1 t = .next { s with opr := 2, rem := 0, rsp := ⟨.doneEmpty, 0⟩, sent := s.sent ++ [⟨.doneEmpty, 0⟩] }) ∧
    (n ≠ 0 → ∃ t : State, exec (.bits n) s = .next t ∧ ∃ u : State, runSteps (4 * n.toNat) t = .next u ∧
      u.phase = .idle ∧ u.sent = s.sent ++ bitsBeats (s.q.take n.toNat) ∧ u.q = s.q.drop n.toNat ∧ u.state = s.state ∧
      u.head = s.head + BitVec.ofNat 6 n.toNat ∧ u.rem = 0 ∧ u.maxr = s.maxr)

/-- R119, R116: `PACK k` with `k` bits in `Q`: the value of the bits, first bit in bit 0, is the one reply beat. -/
def Obligations.PackCompletes : Prop :=
  ∀ (s : State) (k : Word), s.attentive → s.phase = .idle → k.toNat ≤ 64 → k.toNat ≤ s.q.length →
    let v := BitVec.ofNat 64 (bitsValue (s.q.take k.toNat))
    ∃ t : State, exec (.pack k) s = .next t ∧
      runSteps (k.toNat + 3) t = .next { s with
        opr := 3, kreg := BitVec.ofNat 7 k.toNat, cnt := BitVec.ofNat 7 k.toNat, acc := v, q := s.q.drop k.toNat,
        head := s.head + BitVec.ofNat 6 k.toNat, rsp := ⟨.okLast, v⟩, sent := s.sent ++ [⟨.okLast, v⟩] }

/-- R128, R129, R135: `BOUNDED max` with a candidate in `Q`: below `max` it is the one reply beat; else it is discarded with its bits and
a new attempt of the same width stands at the next bit. -/
def Obligations.BoundedCompletesOrRetries : Prop :=
  ∀ (s : State) (max : Word), s.attentive → s.phase = .idle → 2 ≤ max.toNat → bitlen max ≤ s.q.length →
    let k := bitlen max
    let v := BitVec.ofNat 64 (bitsValue (s.q.take k))
    ∃ t : State, exec (.bounded max) s = .next t ∧
      (v.toNat < max.toNat → runSteps (k + 3) t = .next { s with
        opr := 4, maxr := max, kreg := BitVec.ofNat 7 k, cnt := BitVec.ofNat 7 k, acc := v, q := s.q.drop k,
        head := s.head + BitVec.ofNat 6 k, rsp := ⟨.okLast, v⟩, sent := s.sent ++ [⟨.okLast, v⟩] }) ∧
      (max.toNat ≤ v.toNat → runSteps (k + 2) t = .next { s with
        opr := 4, maxr := max, kreg := BitVec.ofNat 7 k, cnt := 0, acc := 0, q := s.q.drop k,
        head := s.head + BitVec.ofNat 6 k, phase := .need })

/-- R126: `BOUNDED` with `max <= 1` replies 0 and changes neither `STATE` nor `Q`. -/
def Obligations.DegenerateBoundedCompletes : Prop :=
  ∀ (s : State) (max : Word), s.attentive → s.phase = .idle → max.toNat ≤ 1 →
    ∃ t : State, exec (.bounded max) s = .next t ∧
      runSteps 1 t = .next { s with opr := 4, rsp := ⟨.okLast, 0⟩, sent := s.sent ++ [⟨.okLast, 0⟩] }

/-- R160, R162, R163, R170: a refused command gives its one `ERR` beat and changes nothing but `OPR` and `RSP`. -/
def Obligations.RefusalChangesNothing : Prop :=
  ∀ (s : State) (a : Word), s.attentive → s.phase = .idle →
    (∃ t : State, exec (.reserved0 a) s = .next t ∧
      runSteps 1 t = .next { s with opr := 0, rsp := ⟨.err, 1⟩, sent := s.sent ++ [⟨.err, 1⟩] }) ∧
    (∃ t : State, exec (.reserved5 a) s = .next t ∧
      runSteps 1 t = .next { s with opr := 5, rsp := ⟨.err, 1⟩, sent := s.sent ++ [⟨.err, 1⟩] }) ∧
    (∃ t : State, exec (.reserved6 a) s = .next t ∧
      runSteps 1 t = .next { s with opr := 6, rsp := ⟨.err, 1⟩, sent := s.sent ++ [⟨.err, 1⟩] }) ∧
    (∃ t : State, exec (.reserved7 a) s = .next t ∧
      runSteps 1 t = .next { s with opr := 7, rsp := ⟨.err, 1⟩, sent := s.sent ++ [⟨.err, 1⟩] }) ∧
    (64 < a.toNat → ∃ t : State, exec (.pack a) s = .next t ∧
      runSteps 1 t = .next { s with opr := 3, rsp := ⟨.err, 2⟩, sent := s.sent ++ [⟨.err, 2⟩] })

/-- R149(a): a command whose command-level rule ends is run by the machine to the same beats, `STATE` and `Q`. -/
def Obligations.CommandRefinesReference : Prop :=
  ∀ (i : Instr) (fuel : Nat) (s : State) (beats : List Beat) (g' : Gen), s.attentive → s.phase = .idle →
    runCommand hw fuel i s.gen = some (beats, g') →
    ∃ t : State, exec i s = .next t ∧ ∃ (n : Nat) (u : State), runSteps n t = .next u ∧
      u.phase = .idle ∧ u.gen = g' ∧ u.sent = s.sent ++ beats

/-- R149(b): a command whose command-level rule never ends keeps the machine busy for ever: every number of steps leads to a next state,
and none of them is in `IDLE`. -/
def Obligations.EndlessCommandNeverIdle : Prop :=
  ∀ (i : Instr) (s : State), s.attentive → s.phase = .idle → (∀ fuel : Nat, runCommand hw fuel i s.gen = none) →
    ∃ t : State, exec i s = .next t ∧ ∀ n : Nat, ∃ u : State, runSteps n t = .next u ∧ u.phase ≠ .idle

/-- R149(b), R107: a `BITS n` transfers the beats of its first `j` bits, `j < n`, whether or not it ever ends. -/
def Obligations.BitsDeliversEachBit : Prop :=
  ∀ (s : State) (n : Word) (fuel j : Nat) (bs : List Bit) (g' : Gen), s.attentive → s.phase = .idle → j < n.toNat →
    takeBits hw fuel j s.gen = some (bs, g') →
    ∃ t : State, exec (.bits n) s = .next t ∧ ∃ (m : Nat) (u : State), runSteps m t = .next u ∧
      u.sent = s.sent ++ bs.map (fun b => ⟨.okMore, bitWord b⟩) ∧ u.gen = g'

/-- R148, R149, R150, R193: whatever the host's timing, a run without reset from `IDLE` that is in `IDLE` again has carried out, in
order, exactly the commands handed over, each with the beats and the architectural state of the command-level rules. -/
def Obligations.EndedRunsAreReferenceRuns : Prop :=
  ∀ (k : Nat) (s t : State), s.noReset → s.phase = .idle → runSteps k s = .next t → t.phase = .idle →
    ∃ (done : List Instr) (fuel : Nat) (beats : List Beat),
      s.offered = done ++ t.offered ∧ runCommands hw fuel done s.gen = some (beats, t.gen) ∧ t.sent = s.sent ++ beats

/-- R54: along any run without reset, the groups of the words pulled, after what `Q` held, are the bits popped in order followed by `Q`. -/
def Obligations.StreamOrder : Prop :=
  ∀ (k : Nat) (s t : State), s.noReset → runSteps k s = .next t →
    poppedIn k s ++ t.q = s.q ++ stream hw (pulledIn k s) s.state ∧ t.state = xsIter hw (pulledIn k s) s.state

/-- R148, R20: what the block does next does not depend on the host's script or on what was sent before. -/
def Obligations.BlockIgnoresHostTiming : Prop :=
  ∀ s t s' t' : State, s.sameBlock t → s.noReset → t.noReset → s.cmd = t.cmd → s.rspReady = t.rspReady →
    step s = .next s' → step t = .next t' →
    s'.sameBlock t' ∧ ∃ beats : List Beat, s'.sent = s.sent ++ beats ∧ t'.sent = t.sent ++ beats

/-- R20, R142: nothing in the working registers is carried from one command to the next: two blocks in `IDLE` with the same `STATE` and
`Q` run one command to the same phases, beats, `STATE` and `Q`, whatever their working registers hold. -/
def Obligations.WorkingRegistersNotCarried : Prop :=
  ∀ (k : Nat) (i : Instr) (s t s' t' : State), s.attentive → t.attentive → s.phase = .idle → t.phase = .idle → s.gen = t.gen →
    s.cmd = none → t.cmd = none →
    runSteps k (s.withCommand (encode i)) = .next s' → runSteps k (t.withCommand (encode i)) = .next t' →
    s'.phase = t'.phase ∧ s'.gen = t'.gen ∧ ∃ beats : List Beat, s'.sent = s.sent ++ beats ∧ t'.sent = t.sent ++ beats

/-! ## Reset -/

/-- R35, R181, R182: the value of every piece of block state after reset, for all straps. -/
def Obligations.ResetValues : Prop :=
  ∀ s : State,
    let t := s.construct hw
    let seed := if s.seedSel then s.seedIn else 0x00000000499602D2
    t.state = (if seed = 0 then 1 else seed) ∧ t.state ≠ 0 ∧ t.q = [] ∧ t.len = 0 ∧ t.head = 0 ∧ t.phase = .idle ∧ t.opr = 0 ∧
    t.kreg = 0 ∧ t.cnt = 0 ∧ t.acc = 0 ∧ t.maxr = 0 ∧ t.rem = 0 ∧ t.rsp = ⟨.okLast, 0⟩ ∧ t.rspValid = false

/-- The model's choice (log 1 for the straps, log 2 for the host's side): `State.reset` is the block as constructed with `seed_sel` = 0,
out of reset, with nothing offered and nothing transferred. -/
def Obligations.ResetStateIsConstructed : Prop :=
  State.reset.construct hw = State.reset ∧ State.reset.state = 1234567890 ∧ State.reset.seedSel = false ∧ State.reset.rst = false ∧
  State.reset.cmdReady = true ∧ State.reset.cmd = none ∧ State.reset.rspReady = true ∧ State.reset.script = [] ∧ State.reset.sent = []

/-- R180, R183: asserting `rst` puts the block into its reset state from any state, also in the middle of a command; the beats already
transferred stay; while `rst` = 1 the block stays there and neither channel transfers; after release it is in `IDLE`. The acts of the
host and their place between steps are the model's (log 2). -/
def Obligations.ResetConstructsFromAnyState : Prop :=
  ∀ (s : State) (sel : Bool) (x : Word) (rest : List HostAct),
    let t := hostAct hw s (.assertReset sel x) rest
    t.state = seedState hw sel x ∧ t.q = [] ∧ t.head = 0 ∧ t.phase = .idle ∧ t.opr = 0 ∧ t.kreg = 0 ∧ t.cnt = 0 ∧ t.acc = 0 ∧
    t.maxr = 0 ∧ t.rem = 0 ∧ t.rsp = ⟨.okLast, 0⟩ ∧ t.sent = s.sent ∧ t.cmdReady = false ∧ t.rspValid = false ∧
    step t = .next (hostTurn hw t) ∧
    (hostAct hw t .releaseReset rest).cmdReady = true ∧ (hostAct hw t .releaseReset rest).sameBlock t

/-- R187: seed 0 and seed 1 construct the same block, so every run of commands gives the same replies. -/
def Obligations.SeedZeroEqualsSeedOne : Prop :=
  (∀ s : State, ({ s with seedSel := true, seedIn := 0 } : State).construct hw =
    { ({ s with seedSel := true, seedIn := 1 } : State).construct hw with seedIn := 0 }) ∧
  (∀ (fuel : Nat) (is : List Instr), runCommands hw fuel is (genReset hw true 0) = runCommands hw fuel is (genReset hw true 1))

/-! ## Invariants -/

/-- The invariant holds right after reset, whatever the straps. -/
def Obligations.InvariantAtReset : Prop :=
  State.reset.Inv ∧ ∀ s : State, (s.construct hw).Inv

/-- R22, R25, R28, R143, R145, R180: every step, of the block and of the host, keeps the invariant, from every state that has it. -/
def Obligations.InvariantKeptByStep : Prop :=
  ∀ s t : State, s.Inv → step s = .next t → t.Inv

/-- R147, R178: in a state that has the invariant the step always answers a next state: no fault and no refusal. -/
def Obligations.NeverFaults : Prop :=
  ∀ s : State, s.Inv → ∃ t : State, step s = .next t

/-- R161, R67, R164: from a state that has the invariant, a step transfers at most one beat, and an `ERR` beat carries code 1 or 2. -/
def Obligations.ErrorCodesProduced : Prop :=
  ∀ s t : State, s.Inv → step s = .next t →
    t.sent = s.sent ∨ ∃ b : Beat, t.sent = s.sent ++ [b] ∧ (b.status = .err → b.data = 1 ∨ b.data = 2)

/-- The model's choice (log 6): in register contents that the invariant rules out, and for which R143 and R145 give no effect, a step
stops under its own name. -/
def Obligations.UnreachableRegistersFault : Prop :=
  (∀ s : State, s.rst = false → s.phase = .need → s.cnt ≠ s.kreg → s.q ≠ [] → 64 ≤ s.cnt.toNat →
    step s = .fault .packIndexOutOfRange) ∧
  (∀ s : State, s.rst = false → s.phase = .check → (s.opr = 0 ∨ s.opr = 5 ∨ s.opr = 6 ∨ s.opr = 7) →
    step s = .fault .reservedOprAtCheck) ∧
  (∀ s : State, s.rst = false → s.phase = .check → s.opr = 2 → s.rem = 0 → step s = .fault .remUnderflow)
end

