-- ==== Sys2Proof/Laws/Encoding.lean ====
section
/-!
SUPPORT. The fields of a command word (30_encoding.md R61): what they are as numbers, and that they take a word apart and put it together.
-/

namespace Sys2Proof

theorem fieldsWord_toNat (o : BitVec 3) (a : Word) : (o ++ a : CmdWord).toNat = o.toNat * 2 ^ 64 + a.toNat := by
  have h : (o ++ a).toNat = o.toNat <<< 64 ||| a.toNat := BitVec.toNat_append o a
  rw [← Nat.shiftLeft_add_eq_or_of_lt a.isLt, Nat.shiftLeft_eq] at h
  exact h

theorem opField_toNat (w : CmdWord) : (opField w).toNat = w.toNat / 2 ^ 64 := by
  have := w.isLt
  simp only [opField, BitVec.extractLsb'_toNat, Nat.shiftRight_eq_div_pow]
  omega

theorem argField_toNat (w : CmdWord) : (argField w).toNat = w.toNat % 2 ^ 64 := by
  simp only [argField, BitVec.extractLsb'_toNat, Nat.shiftRight_eq_div_pow]
  omega

theorem opField_append (o : BitVec 3) (a : Word) : opField (o ++ a) = o := by
  have := o.isLt; have := a.isLt
  apply BitVec.eq_of_toNat_eq
  rw [opField_toNat, fieldsWord_toNat]; omega

theorem argField_append (o : BitVec 3) (a : Word) : argField (o ++ a) = a := by
  have := a.isLt
  apply BitVec.eq_of_toNat_eq
  rw [argField_toNat, fieldsWord_toNat]; omega

theorem append_fields (w : CmdWord) : (opField w ++ argField w : CmdWord) = w := by
  apply BitVec.eq_of_toNat_eq
  rw [fieldsWord_toNat, opField_toNat, argField_toNat]; omega

theorem opcode_cases (o : BitVec 3) : o = 0 ∨ o = 1 ∨ o = 2 ∨ o = 3 ∨ o = 4 ∨ o = 5 ∨ o = 6 ∨ o = 7 := by
  revert o; decide

theorem mask_op (w : CmdWord) : w &&& 0x70000000000000000#67 = (opField w ++ (0#64) : CmdWord) := by
  apply BitVec.eq_of_toNat_eq
  have h2 : w.toNat &&& 0x70000000000000000 = w.toNat / 2^64 * 2^64 := by
    have := w.isLt
    have e : (0x70000000000000000 : Nat) = 7 <<< 64 := by decide
    apply Nat.eq_of_testBit_eq
    intro i
    rw [e, Nat.testBit_and, Nat.testBit_shiftLeft, ← Nat.shiftLeft_eq, Nat.testBit_shiftLeft, Nat.testBit_div_two_pow]
    by_cases h : 64 ≤ i
    · simp only [h, decide_true, Bool.true_and]
      have : i - 64 + 64 = i := by omega
      by_cases h3 : i - 64 < 3
      · have : ∀ j < 3, (7:Nat).testBit j = true := by decide
        simp [this _ h3, *]
      · have : w.toNat.testBit i = false := Nat.testBit_lt_two_pow (lt_of_lt_of_le w.isLt (Nat.pow_le_pow_right (by omega) (by omega)))
        simp [*]
    · simp [h]
  rw [BitVec.toNat_and, fieldsWord_toNat, opField_toNat]
  simpa using h2

end Sys2Proof
end

