-- ==== Sys2Proof/Laws/Words.lean ====
section
/-!
SUPPORT. A word is its 64 bits: extensionality, and the bits of the machine's word operations (00_scope.md R11, R12).
-/

namespace Sys2Proof.Machine

theorem word_ext (x y : Word) (h : ∀ i, i < 64 → wordBit x i = wordBit y i) : x = y :=
  BitVec.eq_of_getLsbD_eq h

theorem wordBit_of_ge (x : Word) (i : Nat) (h : 64 ≤ i) : wordBit x i = false := by
  unfold wordBit; exact BitVec.getLsbD_of_ge x i h

theorem wordBit_xor (x y : Word) (i : Nat) : wordBit (x ^^^ y) i = (wordBit x i ^^ wordBit y i) := by
  unfold wordBit; rw [BitVec.getLsbD_xor]

theorem wordBit_shl (x : Word) (k i : Nat) (hi : i < 64) :
    wordBit (shl x k) i = (if k ≤ i then wordBit x (i - k) else false) := by
  unfold wordBit shl
  rw [BitVec.getLsbD_shiftLeft]
  by_cases h : k ≤ i <;> simp [h, hi]

theorem wordBit_shr (x : Word) (k i : Nat) : wordBit (shr x k) i = wordBit x (k + i) := by
  unfold wordBit shr
  rw [BitVec.getLsbD_ushiftRight]

theorem wordBit_of_lt (v : Word) (n i : Nat) (hv : v.toNat < 2 ^ n) (hi : n ≤ i) : wordBit v i = false :=
  Nat.testBit_lt_two_pow (lt_of_lt_of_le hv (Nat.pow_le_pow_right (by omega) hi))

theorem toNat_lt_of_bits (v : Word) (n : Nat) (h : ∀ i, n ≤ i → i < 64 → wordBit v i = false) : v.toNat < 2 ^ n := by
  apply Nat.lt_pow_two_of_testBit
  intro i hi
  by_cases h64 : i < 64
  · exact h i hi h64
  · exact Nat.testBit_lt_two_pow (lt_of_lt_of_le v.isLt (Nat.pow_le_pow_right (by omega) (by omega)))

end Sys2Proof.Machine
end

