-- ==== Sys2Proof/Laws/Packer.lean ====
section
/-!
SUPPORT. Bits going into an accumulator, one position after the other (42_packer.md R116 to R118), and the value of a list of bits.
-/

namespace Sys2Proof.Machine

theorem bitWord_shift_bit (b : Bit) (j i : Nat) (hi : i < 64) : (bitWord b <<< j).getLsbD i = (decide (i = j) && b) := by
  cases b
  · simp [bitWord]
  · simp only [bitWord, if_true, BitVec.getLsbD_shiftLeft]
    by_cases h : i = j
    · subst h; simp [hi]
    · by_cases h2 : i < j
      · simp [h, h2]
      · have : ¬ (i - j = 0) := by omega
        simp [h, this]

theorem wordBit_writeBit (v : Word) (j i : Nat) (b : Bit) (hi : i < 64) :
    wordBit (writeBit v j b) i = if i = j then b else wordBit v i := by
  unfold wordBit writeBit
  have h1 : (1#64 <<< j).getLsbD i = decide (i = j) := by simpa [bitWord] using bitWord_shift_bit true j i hi
  rw [BitVec.getLsbD_or, BitVec.getLsbD_and, BitVec.getLsbD_not, h1, bitWord_shift_bit b j i hi]
  by_cases h : i = j <;> simp [h, hi]

theorem wordBit_orBit (v : Word) (j i : Nat) (b : Bit) (hi : i < 64) :
    wordBit (orBit v j b) i = (wordBit v i || (decide (i = j) && b)) := by
  unfold wordBit orBit
  rw [BitVec.getLsbD_or, bitWord_shift_bit b j i hi]

theorem writeBit_eq_orBit (v : Word) (j : Nat) (b : Bit) (hv : v.toNat < 2 ^ j) : writeBit v j b = orBit v j b := by
  apply word_ext
  intro i hi
  rw [wordBit_writeBit v j i b hi, wordBit_orBit v j i b hi]
  by_cases h : i = j
  · subst h; simp [wordBit_of_lt v i i hv le_rfl]
  · simp [h]

theorem orBit_lt (v : Word) (j : Nat) (b : Bit) (hv : v.toNat < 2 ^ j) : (orBit v j b).toNat < 2 ^ (j + 1) := by
  apply toNat_lt_of_bits
  intro i hi h64
  rw [wordBit_orBit v j i b h64, wordBit_of_lt v j i hv (by omega)]
  have : i ≠ j := by omega
  simp [this]

theorem orBit_toNat (v : Word) (j : Nat) (b : Bit) (hj : j < 64) (hv : v.toNat < 2 ^ j) :
    (orBit v j b).toNat = v.toNat + 2 ^ j * (if b then 1 else 0) := by
  have hs : (bitWord b <<< j).toNat = 2 ^ j * (if b then 1 else 0) := by
    cases b
    · simp [bitWord]
    · simp [bitWord, BitVec.toNat_shiftLeft, Nat.shiftLeft_eq]
      have : (2 : Nat) ^ j < 2 ^ 64 := Nat.pow_lt_pow_right (by norm_num) hj
      simpa using this
  unfold orBit
  rw [BitVec.toNat_or, hs]
  cases b
  · simp
  · simp only [if_true, Nat.mul_one]
    have := Nat.two_pow_add_eq_or_of_lt hv 1
    rw [Nat.mul_one] at this
    rw [Nat.or_comm, ← this, Nat.add_comm]

theorem bitsValue_append (bs : List Bit) (b : Bit) :
    bitsValue (bs ++ [b]) = bitsValue bs + 2 ^ bs.length * (if b then 1 else 0) := by
  induction bs with
  | nil => simp [bitsValue]
  | cons a bs ih => simp only [List.cons_append, bitsValue, ih, List.length_cons, Nat.pow_succ]; ring

theorem bitsValue_lt (bs : List Bit) : bitsValue bs < 2 ^ bs.length := by
  induction bs with
  | nil => simp [bitsValue]
  | cons a bs ih => simp only [bitsValue, List.length_cons, Nat.pow_succ]; split <;> omega

end Sys2Proof.Machine
end

