-- ==== Sys2Proof/Laws/PerInstr.lean ====
section
/-!
SUPPORT. Per command: the word of a command holds its opcode and its operand in the fields that 30_encoding.md R61 and R63 give them.
-/

namespace Sys2Proof.Laws.Fields

/-- The two fields of the encoded command are the opcode of R63 and the operand of R62, R69. -/
def Statement (i : Instr) : Prop := opField (encode i) = opcodeOf i ∧ argField (encode i) = operandOf i

theorem bit (arg : Word) : Statement (.bit arg) := ⟨opField_append _ _, argField_append _ _⟩
theorem bits (n : Word) : Statement (.bits n) := ⟨opField_append _ _, argField_append _ _⟩
theorem pack (numBits : Word) : Statement (.pack numBits) := ⟨opField_append _ _, argField_append _ _⟩
theorem bounded (max : Word) : Statement (.bounded max) := ⟨opField_append _ _, argField_append _ _⟩
theorem reserved0 (arg : Word) : Statement (.reserved0 arg) := ⟨opField_append _ _, argField_append _ _⟩
theorem reserved5 (arg : Word) : Statement (.reserved5 arg) := ⟨opField_append _ _, argField_append _ _⟩
theorem reserved6 (arg : Word) : Statement (.reserved6 arg) := ⟨opField_append _ _, argField_append _ _⟩
theorem reserved7 (arg : Word) : Statement (.reserved7 arg) := ⟨opField_append _ _, argField_append _ _⟩

end Sys2Proof.Laws.Fields
end

