-- ==== Sys2Proof/Laws/Whitener.lean ====
section
/-!
SUPPORT. The pair rule over a list of pairs, its length, and the rule on a sequence pair by pair (41_whitener.md R96, R97, R105).
-/

namespace Sys2Proof.Machine

theorem pairYield_length_le (a b : Bit) : (pairYield a b).length ≤ 1 := by
  unfold pairYield; split <;> simp

theorem flatMap_pairOf_length_le (w : Word) (l : List Nat) : (l.flatMap (pairOf w)).length ≤ l.length := by
  induction l with
  | nil => simp
  | cons p l ih =>
    have := pairYield_length_le (wordBit w (2 * p)) (wordBit w (2 * p + 1))
    simp only [List.flatMap_cons, List.length_append, List.length_cons, pairOf] at *
    omega

theorem group_length_le (c : Config) (w : Word) : (group c w).length ≤ c.pairs := by
  have := flatMap_pairOf_length_le w (List.range c.pairs)
  simpa [group] using this

theorem flatMap_pairOf_eq (w : Word) (l : List Nat) : l.flatMap (pairOf w) =
    (l.filter (fun p => wordBit w (2 * p) != wordBit w (2 * p + 1))).map (fun p => wordBit w (2 * p)) := by
  induction l with
  | nil => rfl
  | cons p l ih =>
    rw [List.flatMap_cons, ih]
    by_cases h : wordBit w (2 * p) = wordBit w (2 * p + 1) <;> simp [pairOf, pairYield, h]

theorem vn_range (n : Nat) : ∀ f : Nat → Bit,
    vn ((List.range (2 * n)).map f) = (List.range n).flatMap (fun p => pairYield (f (2 * p)) (f (2 * p + 1))) := by
  induction n with
  | zero => intro f; rfl
  | succ n ih =>
    intro f
    rw [show 2 * (n + 1) = (2 * n + 1) + 1 by omega, List.range_succ_eq_map, List.range_succ_eq_map, List.range_succ_eq_map]
    simp only [List.map_cons, List.map_map, vn, List.flatMap_cons, List.flatMap_map]
    have := ih (f ∘ Nat.succ ∘ Nat.succ)
    rw [this]
    rfl

theorem serialRun_even (xs : List Bit) (h : xs.length % 2 = 0) (first : Bit) (out : List Bit) :
    (serialRun ⟨false, first, out⟩ xs).out = out ++ vn xs ∧ (serialRun ⟨false, first, out⟩ xs).half = false := by
  induction xs using vn.induct generalizing first out with
  | case1 a b rest ih =>
    have hr : rest.length % 2 = 0 := by simp only [List.length_cons] at h; omega
    have hs : serialRun ⟨false, first, out⟩ (a :: b :: rest) = serialRun ⟨false, a, out ++ pairYield a b⟩ rest := by
      by_cases hab : a = b
      · simp [serialRun, serialStep, pairYield, hab]
      · simp [serialRun, serialStep, pairYield, hab, Ne.symm hab]
    rw [hs, vn, ← List.append_assoc]
    exact ih hr a (out ++ pairYield a b)
  | case2 a => simp at h
  | case3 => simp [serialRun, vn]

end Sys2Proof.Machine
end

