-- ==== Sys2Proof/Laws/Reference.lean ====
section
/-!
SUPPORT. The command-level operations: what each does if it ends, and that more fuel gives the same result (41_whitener.md R98 to R100, 42_packer.md R116, 43_sampler.md R128).
-/

namespace Sys2Proof.Machine

theorem xsIter_add (c : Config) (m n : Nat) (x : Word) : xsIter c (m + n) x = xsIter c n (xsIter c m x) := by
  induction m generalizing x with
  | zero => simp [xsIter]
  | succ m ih => rw [Nat.succ_add]; exact ih (xsState c x)

theorem stream_add (c : Config) (m n : Nat) (x : Word) : stream c (m + n) x = stream c m x ++ stream c n (xsIter c m x) := by
  induction m generalizing x with
  | zero => simp [stream, xsIter]
  | succ m ih => rw [Nat.succ_add]; simp [stream, ih, xsIter]

theorem refill_zero {c : Config} {g : Gen} (h : lowFlag c g.q = true) : refill c 0 g = none := by simp [refill, h]

theorem refill_succ {c : Config} {fuel : Nat} {g : Gen} (h : lowFlag c g.q = true) :
    refill c (fuel + 1) g = refill c fuel (genPull c g) := by simp [refill, h]

theorem refill_high {c : Config} {fuel : Nat} {g : Gen} (h : lowFlag c g.q = false) : refill c fuel g = some g := by
  cases fuel <;> simp [refill, h]

/-- Everything a refill that ends can do. -/
theorem refill_spec (c : Config) (fuel : Nat) (g g' : Gen) (h : refill c fuel g = some g') :
    lowFlag c g'.q = false ∧ ∃ m, g'.state = xsIter c m g.state ∧ g'.q = g.q ++ stream c m g.state ∧
      (lowFlag c g.q = true → 1 ≤ m ∧ g'.q.length ≤ c.thresh - 1 + c.pairs) := by
  induction fuel generalizing g with
  | zero =>
    cases hl : lowFlag c g.q
    · rw [refill_high hl] at h; cases h; exact ⟨hl, 0, rfl, by simp [stream], by simp⟩
    · rw [refill_zero hl] at h; cases h
  | succ f ih =>
    cases hl : lowFlag c g.q
    · rw [refill_high hl] at h; cases h; exact ⟨hl, 0, rfl, by simp [stream], by simp⟩
    · rw [refill_succ hl] at h
      obtain ⟨h1, m, h2, h3, h4⟩ := ih (genPull c g) h
      refine ⟨h1, m + 1, h2, by rw [h3]; simp [genPull, stream], fun _ => ⟨by omega, ?_⟩⟩
      cases hl2 : lowFlag c (genPull c g).q
      · rw [refill_high hl2] at h
        cases h
        have hlen := group_length_le c (xsWord c g.state)
        simp only [lowFlag, decide_eq_true_eq] at hl
        simp only [genPull, List.length_append]; omega
      · exact (h4 hl2).2

theorem refill_mono {c : Config} {fuel fuel' : Nat} {g g' : Gen} (hf : fuel ≤ fuel') (h : refill c fuel g = some g') :
    refill c fuel' g = some g' := by
  induction fuel generalizing g fuel' with
  | zero =>
    cases hl : lowFlag c g.q
    · rw [refill_high hl] at h ⊢; exact h
    · rw [refill_zero hl] at h; cases h
  | succ f ih =>
    cases hl : lowFlag c g.q
    · rw [refill_high hl] at h ⊢; exact h
    · rw [refill_succ hl] at h
      cases fuel' with
      | zero => omega
      | succ f' => rw [refill_succ hl]; exact ih (by omega) h

theorem nextBit_spec (c : Config) (fuel : Nat) (g g' : Gen) (b : Bit) (h : nextBit c fuel g = some (b, g')) :
    ∃ m, b :: g'.q = g.q ++ stream c m g.state ∧ g'.state = xsIter c m g.state := by
  have hpop : ∀ k : Gen, genPop k = some (b, g') → k.q = b :: g'.q ∧ k.state = g'.state := by
    intro k hk
    unfold genPop at hk
    split at hk
    · cases hk
    · next b0 rest hq => cases hk; exact ⟨hq, rfl⟩
  unfold nextBit at h
  split at h
  · obtain ⟨k, hk, hp⟩ := Option.bind_eq_some_iff.mp h
    obtain ⟨-, m, h1, h2, -⟩ := refill_spec c fuel g k hk
    obtain ⟨h3, h4⟩ := hpop k hp
    exact ⟨m, by rw [← h3, h2], by rw [← h4, h1]⟩
  · obtain ⟨h3, h4⟩ := hpop g h
    exact ⟨0, by simp [stream, h3], by simp [xsIter, h4]⟩

theorem nextBit_mono {c : Config} {fuel fuel' : Nat} {g : Gen} {r : Bit × Gen} (hf : fuel ≤ fuel')
    (h : nextBit c fuel g = some r) : nextBit c fuel' g = some r := by
  unfold nextBit at *
  split at h
  · next he =>
    rw [if_pos he]
    obtain ⟨k, hk, hp⟩ := Option.bind_eq_some_iff.mp h
    exact Option.bind_eq_some_iff.mpr ⟨k, refill_mono hf hk, hp⟩
  · next he => rw [if_neg he]; exact h

theorem takeBits_spec (c : Config) (fuel n : Nat) : ∀ (g g' : Gen) (bs : List Bit), takeBits c fuel n g = some (bs, g') →
    bs.length = n ∧ ∃ m, bs ++ g'.q = g.q ++ stream c m g.state ∧ g'.state = xsIter c m g.state := by
  induction n with
  | zero => intro g g' bs h; cases h; exact ⟨rfl, 0, by simp [stream], rfl⟩
  | succ n ih =>
    intro g g' bs h
    simp only [takeBits] at h
    split at h
    · cases h
    · next b g1 h1 =>
      split at h
      · cases h
      · next bs' g2 h2 =>
        cases h
        obtain ⟨hl, m, h3, h4⟩ := ih _ _ _ h2
        obtain ⟨m1, h5, h6⟩ := nextBit_spec c fuel g g1 b h1
        refine ⟨by simp [hl], m1 + m, ?_, ?_⟩
        · rw [stream_add, ← List.append_assoc, ← h5, ← h6, List.cons_append, List.cons_append, h3]
        · rw [xsIter_add, ← h6, h4]

theorem takeBits_mono {c : Config} {fuel fuel' n : Nat} (hf : fuel ≤ fuel') : ∀ {g : Gen} {r : List Bit × Gen},
    takeBits c fuel n g = some r → takeBits c fuel' n g = some r := by
  induction n with
  | zero => intro g r h; exact h
  | succ n ih =>
    intro g r h
    simp only [takeBits] at h ⊢
    split at h
    · cases h
    · next b g1 h1 =>
      split at h
      · cases h
      · next bs' g2 h2 => rw [nextBit_mono hf h1]; simp only [ih h2]; exact h

theorem takeBits_add (c : Config) (fuel m n : Nat) (g : Gen) : takeBits c fuel (m + n) g =
    (takeBits c fuel m g).bind (fun r => (takeBits c fuel n r.2).map (fun r' => (r.1 ++ r'.1, r'.2))) := by
  induction m generalizing g with
  | zero => simp [takeBits]
  | succ m ih =>
    rw [Nat.succ_add]
    simp only [takeBits]
    cases h : nextBit c fuel g with
    | none => simp
    | some r =>
      simp only [ih]
      cases h2 : takeBits c fuel m r.2 with
      | none => simp
      | some r2 =>
        simp only [Option.bind_some]
        cases h3 : takeBits c fuel n r2.2 <;> simp

/-- The packing loop is the bits drawn, OR-ed in from position `j` on. -/
theorem packLoop_eq_takeBits (c : Config) (fuel n : Nat) : ∀ (j : Nat) (r : Word) (g : Gen), j + n ≤ 64 → r.toNat < 2 ^ j →
    packLoop c fuel n j r g =
      (takeBits c fuel n g).map (fun p => (BitVec.ofNat 64 (r.toNat + 2 ^ j * bitsValue p.1), p.2)) := by
  induction n with
  | zero => intro j r g _ _; simp [packLoop, takeBits, bitsValue]
  | succ n ih =>
    intro j r g hj hr
    simp only [packLoop, takeBits]
    cases h : nextBit c fuel g with
    | none => simp
    | some p =>
      simp only
      rw [ih (j + 1) (orBit r j p.1) p.2 (by omega) (orBit_lt r j p.1 hr)]
      cases h2 : takeBits c fuel n p.2 with
      | none => simp
      | some p2 =>
        simp only [Option.map_some, orBit_toNat r j p.1 (by omega) hr, bitsValue]
        congr 3
        rw [Nat.pow_succ]; ring

theorem packBits_eq_takeBits (c : Config) (fuel k : Nat) (g : Gen) (hk : k ≤ 64) : packBits c fuel k g =
    (takeBits c fuel k g).map (fun p => (BitVec.ofNat 64 (bitsValue p.1), p.2)) := by
  have := packLoop_eq_takeBits c fuel k 0 0 g (by omega) (by simp)
  simpa [packBits] using this

theorem bitsLoop_eq_takeBits (c : Config) (fuel n : Nat) (g : Gen) : bitsLoop c fuel n g =
    (takeBits c fuel n g).map (fun p => (bitsBeats p.1, p.2)) := by
  induction n generalizing g with
  | zero => rfl
  | succ n ih =>
    simp only [bitsLoop, takeBits]
    cases h : nextBit c fuel g with
    | none => simp
    | some p =>
      simp only [ih]
      cases h2 : takeBits c fuel n p.2 with
      | none => simp
      | some p2 =>
        have hl := (takeBits_spec c fuel n _ _ _ h2).1
        simp only [Option.map_some]
        congr 2
        cases hb : p2.1 with
        | nil => rw [hb] at hl; simp at hl; simp [bitsBeats, ← hl]
        | cons b bs => rw [hb] at hl; simp at hl; rw [if_neg (by omega)]; simp [bitsBeats]

theorem sampleLoop_mono {c : Config} {fuel fuel' w : Nat} {max : Word} (hf : fuel ≤ fuel') (hw : w ≤ 64) :
    ∀ {a a' : Nat} {g : Gen} {r : Word × Gen}, a ≤ a' →
    sampleLoop c fuel w max a g = some r → sampleLoop c fuel' w max a' g = some r := by
  intro a
  induction a with
  | zero => intro a' g r _ h; cases h
  | succ a ih =>
    intro a' g r ha h
    cases a' with
    | zero => omega
    | succ a' =>
      simp only [sampleLoop, packBits_eq_takeBits c _ _ _ hw] at h ⊢
      cases h2 : takeBits c fuel w g with
      | none => rw [h2] at h; simp at h
      | some p =>
        rw [h2] at h
        rw [takeBits_mono hf h2]
        simp only [Option.map_some] at h ⊢
        split at h
        · next hc => rw [if_pos hc]; exact h
        · next hc => rw [if_neg hc]; exact ih (by omega) h

end Sys2Proof.Machine
end

