-- ==== Sys2Proof/Laws/Ring.lean ====
section
/-!
SUPPORT. The ring storage entry by entry (10_state.md R26): what a write changes, and one bit pushed.
-/

namespace Sys2Proof.Machine

theorem Ring.realises_len (r : Ring) (s : State) (h : r.realises s) : r.len.toNat = s.q.length := by
  rw [← h.1]; simp [Ring.toQueue]

theorem Ring.getElem?_toQueue (r : Ring) (j : Nat) :
    r.toQueue[j]? = if j < r.len.toNat then some (r.entry (r.index j)) else none := by
  unfold Ring.toQueue
  by_cases h : j < r.len.toNat
  · simp [h]
  · simp [h]

theorem Ring.entry_write (r : Ring) (i k : BitVec 6) (b : Bit) :
    (r.write i b).entry k = if k = i then b else r.entry k := by
  have := wordBit_writeBit r.fmem i.toNat k.toNat b k.isLt
  unfold Ring.entry Ring.write
  unfold wordBit at this
  simp only [this, BitVec.toNat_eq]

theorem Ring.index_injective (r : Ring) (i j : Nat) (hi : i < 64) (hj : j < 64) (h : r.index i = r.index j) : i = j := by
  have h2 : BitVec.ofNat 6 i = BitVec.ofNat 6 j := by
    unfold Ring.index at h
    exact (BitVec.add_right_inj r.head).mp h
  have := congrArg BitVec.toNat h2
  simp only [BitVec.toNat_ofNat] at this
  omega

theorem Ring.push_realises (r : Ring) (s : State) (b : Bit) (h : r.realises s) (hl : s.q.length < 64) :
    (r.push b).realises (s.fifoAppend [b]) := by
  have hlen := Ring.realises_len r s h
  have hlen1 : (r.push b).len.toNat = r.len.toNat + 1 := by
    simp only [Ring.push, Ring.write, BitVec.toNat_add]
    simp; omega
  refine ⟨?_, h.2⟩
  apply List.ext_getElem?
  intro j
  rw [Ring.getElem?_toQueue, hlen1]
  have hent : ∀ j, j ≤ r.len.toNat → (r.push b).entry ((r.push b).index j) = if j = r.len.toNat then b else r.entry (r.index j) := by
    intro j hj
    have : (r.push b).entry ((r.push b).index j) = (r.write (r.index r.len.toNat) b).entry (r.index j) := rfl
    rw [this, Ring.entry_write]
    by_cases hjl : j = r.len.toNat
    · simp [hjl]
    · have : r.index j ≠ r.index r.len.toNat := fun hc => hjl (Ring.index_injective r _ _ (by omega) (by omega) hc)
      simp [hjl, this]
  show _ = (s.q ++ [b])[j]?
  by_cases hj : j < r.len.toNat
  · rw [if_pos (by omega), hent j (by omega), if_neg (by omega), List.getElem?_append_left (by omega), ← h.1, Ring.getElem?_toQueue, if_pos hj]
  · by_cases hj2 : j = r.len.toNat
    · rw [if_pos (by omega), hent j (by omega), if_pos hj2, List.getElem?_append_right (by omega)]
      simp [hj2, hlen]
    · rw [if_neg (by omega), List.getElem?_eq_none (by simp; omega)]

end Sys2Proof.Machine
end

