-- ==== Sys2Proof/Laws/State.lean ====
section
/-!
SUPPORT. One lemma per field per update of the state, each true by rfl and in the simp set, so that no later proof unfolds a record
update. The updates are those of Machine/Ops.lean, Machine/Sequencer.lean and Machine/HostPort.lean.
-/

namespace Sys2Proof.Machine

/-! ### `State.fifoPop` -/

@[simp] theorem State.fifoPop_state (s : State) : s.fifoPop.state = s.state := rfl
@[simp] theorem State.fifoPop_q (s : State) : s.fifoPop.q = s.q.tail := rfl
@[simp] theorem State.fifoPop_head (s : State) : s.fifoPop.head = s.head + 1 := rfl
@[simp] theorem State.fifoPop_phase (s : State) : s.fifoPop.phase = s.phase := rfl
@[simp] theorem State.fifoPop_opr (s : State) : s.fifoPop.opr = s.opr := rfl
@[simp] theorem State.fifoPop_kreg (s : State) : s.fifoPop.kreg = s.kreg := rfl
@[simp] theorem State.fifoPop_cnt (s : State) : s.fifoPop.cnt = s.cnt := rfl
@[simp] theorem State.fifoPop_acc (s : State) : s.fifoPop.acc = s.acc := rfl
@[simp] theorem State.fifoPop_maxr (s : State) : s.fifoPop.maxr = s.maxr := rfl
@[simp] theorem State.fifoPop_rem (s : State) : s.fifoPop.rem = s.rem := rfl
@[simp] theorem State.fifoPop_rsp (s : State) : s.fifoPop.rsp = s.rsp := rfl
@[simp] theorem State.fifoPop_rst (s : State) : s.fifoPop.rst = s.rst := rfl
@[simp] theorem State.fifoPop_seedSel (s : State) : s.fifoPop.seedSel = s.seedSel := rfl
@[simp] theorem State.fifoPop_seedIn (s : State) : s.fifoPop.seedIn = s.seedIn := rfl
@[simp] theorem State.fifoPop_cmd (s : State) : s.fifoPop.cmd = s.cmd := rfl
@[simp] theorem State.fifoPop_rspReady (s : State) : s.fifoPop.rspReady = s.rspReady := rfl
@[simp] theorem State.fifoPop_script (s : State) : s.fifoPop.script = s.script := rfl
@[simp] theorem State.fifoPop_sent (s : State) : s.fifoPop.sent = s.sent := rfl

/-! ### `State.fifoAppend` -/

@[simp] theorem State.fifoAppend_state (s : State) (l : List Bit) : (s.fifoAppend l).state = s.state := rfl
@[simp] theorem State.fifoAppend_q (s : State) (l : List Bit) : (s.fifoAppend l).q = s.q ++ l := rfl
@[simp] theorem State.fifoAppend_head (s : State) (l : List Bit) : (s.fifoAppend l).head = s.head := rfl
@[simp] theorem State.fifoAppend_phase (s : State) (l : List Bit) : (s.fifoAppend l).phase = s.phase := rfl
@[simp] theorem State.fifoAppend_opr (s : State) (l : List Bit) : (s.fifoAppend l).opr = s.opr := rfl
@[simp] theorem State.fifoAppend_kreg (s : State) (l : List Bit) : (s.fifoAppend l).kreg = s.kreg := rfl
@[simp] theorem State.fifoAppend_cnt (s : State) (l : List Bit) : (s.fifoAppend l).cnt = s.cnt := rfl
@[simp] theorem State.fifoAppend_acc (s : State) (l : List Bit) : (s.fifoAppend l).acc = s.acc := rfl
@[simp] theorem State.fifoAppend_maxr (s : State) (l : List Bit) : (s.fifoAppend l).maxr = s.maxr := rfl
@[simp] theorem State.fifoAppend_rem (s : State) (l : List Bit) : (s.fifoAppend l).rem = s.rem := rfl
@[simp] theorem State.fifoAppend_rsp (s : State) (l : List Bit) : (s.fifoAppend l).rsp = s.rsp := rfl
@[simp] theorem State.fifoAppend_rst (s : State) (l : List Bit) : (s.fifoAppend l).rst = s.rst := rfl
@[simp] theorem State.fifoAppend_seedSel (s : State) (l : List Bit) : (s.fifoAppend l).seedSel = s.seedSel := rfl
@[simp] theorem State.fifoAppend_seedIn (s : State) (l : List Bit) : (s.fifoAppend l).seedIn = s.seedIn := rfl
@[simp] theorem State.fifoAppend_cmd (s : State) (l : List Bit) : (s.fifoAppend l).cmd = s.cmd := rfl
@[simp] theorem State.fifoAppend_rspReady (s : State) (l : List Bit) : (s.fifoAppend l).rspReady = s.rspReady := rfl
@[simp] theorem State.fifoAppend_script (s : State) (l : List Bit) : (s.fifoAppend l).script = s.script := rfl
@[simp] theorem State.fifoAppend_sent (s : State) (l : List Bit) : (s.fifoAppend l).sent = s.sent := rfl

/-! ### `State.startPack` -/

@[simp] theorem State.startPack_state (s : State) (k : BitVec 7) : (s.startPack k).state = s.state := rfl
@[simp] theorem State.startPack_q (s : State) (k : BitVec 7) : (s.startPack k).q = s.q := rfl
@[simp] theorem State.startPack_head (s : State) (k : BitVec 7) : (s.startPack k).head = s.head := rfl
@[simp] theorem State.startPack_phase (s : State) (k : BitVec 7) : (s.startPack k).phase = .need := rfl
@[simp] theorem State.startPack_opr (s : State) (k : BitVec 7) : (s.startPack k).opr = s.opr := rfl
@[simp] theorem State.startPack_kreg (s : State) (k : BitVec 7) : (s.startPack k).kreg = k := rfl
@[simp] theorem State.startPack_cnt (s : State) (k : BitVec 7) : (s.startPack k).cnt = 0 := rfl
@[simp] theorem State.startPack_acc (s : State) (k : BitVec 7) : (s.startPack k).acc = 0 := rfl
@[simp] theorem State.startPack_maxr (s : State) (k : BitVec 7) : (s.startPack k).maxr = s.maxr := rfl
@[simp] theorem State.startPack_rem (s : State) (k : BitVec 7) : (s.startPack k).rem = s.rem := rfl
@[simp] theorem State.startPack_rsp (s : State) (k : BitVec 7) : (s.startPack k).rsp = s.rsp := rfl
@[simp] theorem State.startPack_rst (s : State) (k : BitVec 7) : (s.startPack k).rst = s.rst := rfl
@[simp] theorem State.startPack_seedSel (s : State) (k : BitVec 7) : (s.startPack k).seedSel = s.seedSel := rfl
@[simp] theorem State.startPack_seedIn (s : State) (k : BitVec 7) : (s.startPack k).seedIn = s.seedIn := rfl
@[simp] theorem State.startPack_cmd (s : State) (k : BitVec 7) : (s.startPack k).cmd = s.cmd := rfl
@[simp] theorem State.startPack_rspReady (s : State) (k : BitVec 7) : (s.startPack k).rspReady = s.rspReady := rfl
@[simp] theorem State.startPack_script (s : State) (k : BitVec 7) : (s.startPack k).script = s.script := rfl
@[simp] theorem State.startPack_sent (s : State) (k : BitVec 7) : (s.startPack k).sent = s.sent := rfl

/-! ### `State.restartPack` -/

@[simp] theorem State.restartPack_state (s : State) : s.restartPack.state = s.state := rfl
@[simp] theorem State.restartPack_q (s : State) : s.restartPack.q = s.q := rfl
@[simp] theorem State.restartPack_head (s : State) : s.restartPack.head = s.head := rfl
@[simp] theorem State.restartPack_phase (s : State) : s.restartPack.phase = .need := rfl
@[simp] theorem State.restartPack_opr (s : State) : s.restartPack.opr = s.opr := rfl
@[simp] theorem State.restartPack_kreg (s : State) : s.restartPack.kreg = s.kreg := rfl
@[simp] theorem State.restartPack_cnt (s : State) : s.restartPack.cnt = 0 := rfl
@[simp] theorem State.restartPack_acc (s : State) : s.restartPack.acc = 0 := rfl
@[simp] theorem State.restartPack_maxr (s : State) : s.restartPack.maxr = s.maxr := rfl
@[simp] theorem State.restartPack_rem (s : State) : s.restartPack.rem = s.rem := rfl
@[simp] theorem State.restartPack_rsp (s : State) : s.restartPack.rsp = s.rsp := rfl
@[simp] theorem State.restartPack_rst (s : State) : s.restartPack.rst = s.rst := rfl
@[simp] theorem State.restartPack_seedSel (s : State) : s.restartPack.seedSel = s.seedSel := rfl
@[simp] theorem State.restartPack_seedIn (s : State) : s.restartPack.seedIn = s.seedIn := rfl
@[simp] theorem State.restartPack_cmd (s : State) : s.restartPack.cmd = s.cmd := rfl
@[simp] theorem State.restartPack_rspReady (s : State) : s.restartPack.rspReady = s.rspReady := rfl
@[simp] theorem State.restartPack_script (s : State) : s.restartPack.script = s.script := rfl
@[simp] theorem State.restartPack_sent (s : State) : s.restartPack.sent = s.sent := rfl

/-! ### `State.offerReply` -/

@[simp] theorem State.offerReply_state (s : State) (st : Status) (d : Word) : (s.offerReply st d).state = s.state := rfl
@[simp] theorem State.offerReply_q (s : State) (st : Status) (d : Word) : (s.offerReply st d).q = s.q := rfl
@[simp] theorem State.offerReply_head (s : State) (st : Status) (d : Word) : (s.offerReply st d).head = s.head := rfl
@[simp] theorem State.offerReply_phase (s : State) (st : Status) (d : Word) : (s.offerReply st d).phase = .resp := rfl
@[simp] theorem State.offerReply_opr (s : State) (st : Status) (d : Word) : (s.offerReply st d).opr = s.opr := rfl
@[simp] theorem State.offerReply_kreg (s : State) (st : Status) (d : Word) : (s.offerReply st d).kreg = s.kreg := rfl
@[simp] theorem State.offerReply_cnt (s : State) (st : Status) (d : Word) : (s.offerReply st d).cnt = s.cnt := rfl
@[simp] theorem State.offerReply_acc (s : State) (st : Status) (d : Word) : (s.offerReply st d).acc = s.acc := rfl
@[simp] theorem State.offerReply_maxr (s : State) (st : Status) (d : Word) : (s.offerReply st d).maxr = s.maxr := rfl
@[simp] theorem State.offerReply_rem (s : State) (st : Status) (d : Word) : (s.offerReply st d).rem = s.rem := rfl
@[simp] theorem State.offerReply_rsp (s : State) (st : Status) (d : Word) : (s.offerReply st d).rsp = ⟨st, d⟩ := rfl
@[simp] theorem State.offerReply_rst (s : State) (st : Status) (d : Word) : (s.offerReply st d).rst = s.rst := rfl
@[simp] theorem State.offerReply_seedSel (s : State) (st : Status) (d : Word) : (s.offerReply st d).seedSel = s.seedSel := rfl
@[simp] theorem State.offerReply_seedIn (s : State) (st : Status) (d : Word) : (s.offerReply st d).seedIn = s.seedIn := rfl
@[simp] theorem State.offerReply_cmd (s : State) (st : Status) (d : Word) : (s.offerReply st d).cmd = s.cmd := rfl
@[simp] theorem State.offerReply_rspReady (s : State) (st : Status) (d : Word) : (s.offerReply st d).rspReady = s.rspReady := rfl
@[simp] theorem State.offerReply_script (s : State) (st : Status) (d : Word) : (s.offerReply st d).script = s.script := rfl
@[simp] theorem State.offerReply_sent (s : State) (st : Status) (d : Word) : (s.offerReply st d).sent = s.sent := rfl

/-! ### `State.refuse` -/

@[simp] theorem State.refuse_state (s : State) (code : Word) : (s.refuse code).state = s.state := rfl
@[simp] theorem State.refuse_q (s : State) (code : Word) : (s.refuse code).q = s.q := rfl
@[simp] theorem State.refuse_head (s : State) (code : Word) : (s.refuse code).head = s.head := rfl
@[simp] theorem State.refuse_phase (s : State) (code : Word) : (s.refuse code).phase = .resp := rfl
@[simp] theorem State.refuse_opr (s : State) (code : Word) : (s.refuse code).opr = s.opr := rfl
@[simp] theorem State.refuse_kreg (s : State) (code : Word) : (s.refuse code).kreg = s.kreg := rfl
@[simp] theorem State.refuse_cnt (s : State) (code : Word) : (s.refuse code).cnt = s.cnt := rfl
@[simp] theorem State.refuse_acc (s : State) (code : Word) : (s.refuse code).acc = s.acc := rfl
@[simp] theorem State.refuse_maxr (s : State) (code : Word) : (s.refuse code).maxr = s.maxr := rfl
@[simp] theorem State.refuse_rem (s : State) (code : Word) : (s.refuse code).rem = s.rem := rfl
@[simp] theorem State.refuse_rsp (s : State) (code : Word) : (s.refuse code).rsp = ⟨.err, code⟩ := rfl
@[simp] theorem State.refuse_rst (s : State) (code : Word) : (s.refuse code).rst = s.rst := rfl
@[simp] theorem State.refuse_seedSel (s : State) (code : Word) : (s.refuse code).seedSel = s.seedSel := rfl
@[simp] theorem State.refuse_seedIn (s : State) (code : Word) : (s.refuse code).seedIn = s.seedIn := rfl
@[simp] theorem State.refuse_cmd (s : State) (code : Word) : (s.refuse code).cmd = s.cmd := rfl
@[simp] theorem State.refuse_rspReady (s : State) (code : Word) : (s.refuse code).rspReady = s.rspReady := rfl
@[simp] theorem State.refuse_script (s : State) (code : Word) : (s.refuse code).script = s.script := rfl
@[simp] theorem State.refuse_sent (s : State) (code : Word) : (s.refuse code).sent = s.sent := rfl

/-! ### `State.transfer` -/

@[simp] theorem State.transfer_state (s : State) : s.transfer.state = s.state := rfl
@[simp] theorem State.transfer_q (s : State) : s.transfer.q = s.q := rfl
@[simp] theorem State.transfer_head (s : State) : s.transfer.head = s.head := rfl
@[simp] theorem State.transfer_phase (s : State) : s.transfer.phase = s.phase := rfl
@[simp] theorem State.transfer_opr (s : State) : s.transfer.opr = s.opr := rfl
@[simp] theorem State.transfer_kreg (s : State) : s.transfer.kreg = s.kreg := rfl
@[simp] theorem State.transfer_cnt (s : State) : s.transfer.cnt = s.cnt := rfl
@[simp] theorem State.transfer_acc (s : State) : s.transfer.acc = s.acc := rfl
@[simp] theorem State.transfer_maxr (s : State) : s.transfer.maxr = s.maxr := rfl
@[simp] theorem State.transfer_rem (s : State) : s.transfer.rem = s.rem := rfl
@[simp] theorem State.transfer_rsp (s : State) : s.transfer.rsp = s.rsp := rfl
@[simp] theorem State.transfer_rst (s : State) : s.transfer.rst = s.rst := rfl
@[simp] theorem State.transfer_seedSel (s : State) : s.transfer.seedSel = s.seedSel := rfl
@[simp] theorem State.transfer_seedIn (s : State) : s.transfer.seedIn = s.seedIn := rfl
@[simp] theorem State.transfer_cmd (s : State) : s.transfer.cmd = s.cmd := rfl
@[simp] theorem State.transfer_rspReady (s : State) : s.transfer.rspReady = s.rspReady := rfl
@[simp] theorem State.transfer_script (s : State) : s.transfer.script = s.script := rfl
@[simp] theorem State.transfer_sent (s : State) : s.transfer.sent = s.sent ++ [s.rsp] := rfl

/-! ### `State.endCommand` -/

@[simp] theorem State.endCommand_state (s : State) : s.endCommand.state = s.state := rfl
@[simp] theorem State.endCommand_q (s : State) : s.endCommand.q = s.q := rfl
@[simp] theorem State.endCommand_head (s : State) : s.endCommand.head = s.head := rfl
@[simp] theorem State.endCommand_phase (s : State) : s.endCommand.phase = .idle := rfl
@[simp] theorem State.endCommand_opr (s : State) : s.endCommand.opr = s.opr := rfl
@[simp] theorem State.endCommand_kreg (s : State) : s.endCommand.kreg = s.kreg := rfl
@[simp] theorem State.endCommand_cnt (s : State) : s.endCommand.cnt = s.cnt := rfl
@[simp] theorem State.endCommand_acc (s : State) : s.endCommand.acc = s.acc := rfl
@[simp] theorem State.endCommand_maxr (s : State) : s.endCommand.maxr = s.maxr := rfl
@[simp] theorem State.endCommand_rem (s : State) : s.endCommand.rem = s.rem := rfl
@[simp] theorem State.endCommand_rsp (s : State) : s.endCommand.rsp = s.rsp := rfl
@[simp] theorem State.endCommand_rst (s : State) : s.endCommand.rst = s.rst := rfl
@[simp] theorem State.endCommand_seedSel (s : State) : s.endCommand.seedSel = s.seedSel := rfl
@[simp] theorem State.endCommand_seedIn (s : State) : s.endCommand.seedIn = s.seedIn := rfl
@[simp] theorem State.endCommand_cmd (s : State) : s.endCommand.cmd = s.cmd := rfl
@[simp] theorem State.endCommand_rspReady (s : State) : s.endCommand.rspReady = s.rspReady := rfl
@[simp] theorem State.endCommand_script (s : State) : s.endCommand.script = s.script := rfl
@[simp] theorem State.endCommand_sent (s : State) : s.endCommand.sent = s.sent := rfl

/-! ### `State.takeCommand` -/

@[simp] theorem State.takeCommand_state (s : State) : s.takeCommand.state = s.state := rfl
@[simp] theorem State.takeCommand_q (s : State) : s.takeCommand.q = s.q := rfl
@[simp] theorem State.takeCommand_head (s : State) : s.takeCommand.head = s.head := rfl
@[simp] theorem State.takeCommand_phase (s : State) : s.takeCommand.phase = s.phase := rfl
@[simp] theorem State.takeCommand_opr (s : State) : s.takeCommand.opr = s.opr := rfl
@[simp] theorem State.takeCommand_kreg (s : State) : s.takeCommand.kreg = s.kreg := rfl
@[simp] theorem State.takeCommand_cnt (s : State) : s.takeCommand.cnt = s.cnt := rfl
@[simp] theorem State.takeCommand_acc (s : State) : s.takeCommand.acc = s.acc := rfl
@[simp] theorem State.takeCommand_maxr (s : State) : s.takeCommand.maxr = s.maxr := rfl
@[simp] theorem State.takeCommand_rem (s : State) : s.takeCommand.rem = s.rem := rfl
@[simp] theorem State.takeCommand_rsp (s : State) : s.takeCommand.rsp = s.rsp := rfl
@[simp] theorem State.takeCommand_rst (s : State) : s.takeCommand.rst = s.rst := rfl
@[simp] theorem State.takeCommand_seedSel (s : State) : s.takeCommand.seedSel = s.seedSel := rfl
@[simp] theorem State.takeCommand_seedIn (s : State) : s.takeCommand.seedIn = s.seedIn := rfl
@[simp] theorem State.takeCommand_cmd (s : State) : s.takeCommand.cmd = none := rfl
@[simp] theorem State.takeCommand_rspReady (s : State) : s.takeCommand.rspReady = s.rspReady := rfl
@[simp] theorem State.takeCommand_script (s : State) : s.takeCommand.script = s.script := rfl
@[simp] theorem State.takeCommand_sent (s : State) : s.takeCommand.sent = s.sent := rfl

/-! ### `State.withCommand` -/

@[simp] theorem State.withCommand_state (s : State) (w : CmdWord) : (s.withCommand w).state = s.state := rfl
@[simp] theorem State.withCommand_q (s : State) (w : CmdWord) : (s.withCommand w).q = s.q := rfl
@[simp] theorem State.withCommand_head (s : State) (w : CmdWord) : (s.withCommand w).head = s.head := rfl
@[simp] theorem State.withCommand_phase (s : State) (w : CmdWord) : (s.withCommand w).phase = .idle := rfl
@[simp] theorem State.withCommand_opr (s : State) (w : CmdWord) : (s.withCommand w).opr = s.opr := rfl
@[simp] theorem State.withCommand_kreg (s : State) (w : CmdWord) : (s.withCommand w).kreg = s.kreg := rfl
@[simp] theorem State.withCommand_cnt (s : State) (w : CmdWord) : (s.withCommand w).cnt = s.cnt := rfl
@[simp] theorem State.withCommand_acc (s : State) (w : CmdWord) : (s.withCommand w).acc = s.acc := rfl
@[simp] theorem State.withCommand_maxr (s : State) (w : CmdWord) : (s.withCommand w).maxr = s.maxr := rfl
@[simp] theorem State.withCommand_rem (s : State) (w : CmdWord) : (s.withCommand w).rem = s.rem := rfl
@[simp] theorem State.withCommand_rsp (s : State) (w : CmdWord) : (s.withCommand w).rsp = s.rsp := rfl
@[simp] theorem State.withCommand_rst (s : State) (w : CmdWord) : (s.withCommand w).rst = false := rfl
@[simp] theorem State.withCommand_seedSel (s : State) (w : CmdWord) : (s.withCommand w).seedSel = s.seedSel := rfl
@[simp] theorem State.withCommand_seedIn (s : State) (w : CmdWord) : (s.withCommand w).seedIn = s.seedIn := rfl
@[simp] theorem State.withCommand_cmd (s : State) (w : CmdWord) : (s.withCommand w).cmd = some w := rfl
@[simp] theorem State.withCommand_rspReady (s : State) (w : CmdWord) : (s.withCommand w).rspReady = s.rspReady := rfl
@[simp] theorem State.withCommand_script (s : State) (w : CmdWord) : (s.withCommand w).script = s.script := rfl
@[simp] theorem State.withCommand_sent (s : State) (w : CmdWord) : (s.withCommand w).sent = s.sent := rfl

/-! ### `State.drawBit` -/

@[simp] theorem State.drawBit_state (s : State) (b : Bit) : (s.drawBit b).state = s.state := rfl
@[simp] theorem State.drawBit_q (s : State) (b : Bit) : (s.drawBit b).q = s.q.tail := rfl
@[simp] theorem State.drawBit_head (s : State) (b : Bit) : (s.drawBit b).head = s.head + 1 := rfl
@[simp] theorem State.drawBit_phase (s : State) (b : Bit) : (s.drawBit b).phase = s.phase := rfl
@[simp] theorem State.drawBit_opr (s : State) (b : Bit) : (s.drawBit b).opr = s.opr := rfl
@[simp] theorem State.drawBit_kreg (s : State) (b : Bit) : (s.drawBit b).kreg = s.kreg := rfl
@[simp] theorem State.drawBit_cnt (s : State) (b : Bit) : (s.drawBit b).cnt = s.cnt + 1 := rfl
@[simp] theorem State.drawBit_acc (s : State) (b : Bit) : (s.drawBit b).acc = writeBit s.acc s.cnt.toNat b := rfl
@[simp] theorem State.drawBit_maxr (s : State) (b : Bit) : (s.drawBit b).maxr = s.maxr := rfl
@[simp] theorem State.drawBit_rem (s : State) (b : Bit) : (s.drawBit b).rem = s.rem := rfl
@[simp] theorem State.drawBit_rsp (s : State) (b : Bit) : (s.drawBit b).rsp = s.rsp := rfl
@[simp] theorem State.drawBit_rst (s : State) (b : Bit) : (s.drawBit b).rst = s.rst := rfl
@[simp] theorem State.drawBit_seedSel (s : State) (b : Bit) : (s.drawBit b).seedSel = s.seedSel := rfl
@[simp] theorem State.drawBit_seedIn (s : State) (b : Bit) : (s.drawBit b).seedIn = s.seedIn := rfl
@[simp] theorem State.drawBit_cmd (s : State) (b : Bit) : (s.drawBit b).cmd = s.cmd := rfl
@[simp] theorem State.drawBit_rspReady (s : State) (b : Bit) : (s.drawBit b).rspReady = s.rspReady := rfl
@[simp] theorem State.drawBit_script (s : State) (b : Bit) : (s.drawBit b).script = s.script := rfl
@[simp] theorem State.drawBit_sent (s : State) (b : Bit) : (s.drawBit b).sent = s.sent := rfl

/-! ### `State.pull` -/

@[simp] theorem State.pull_state (c : Config) (s : State) : (s.pull c).state = xsState c s.state := rfl
@[simp] theorem State.pull_q (c : Config) (s : State) : (s.pull c).q = s.q ++ group c (xsWord c s.state) := rfl
@[simp] theorem State.pull_head (c : Config) (s : State) : (s.pull c).head = s.head := rfl
@[simp] theorem State.pull_phase (c : Config) (s : State) : (s.pull c).phase = s.phase := rfl
@[simp] theorem State.pull_opr (c : Config) (s : State) : (s.pull c).opr = s.opr := rfl
@[simp] theorem State.pull_kreg (c : Config) (s : State) : (s.pull c).kreg = s.kreg := rfl
@[simp] theorem State.pull_cnt (c : Config) (s : State) : (s.pull c).cnt = s.cnt := rfl
@[simp] theorem State.pull_acc (c : Config) (s : State) : (s.pull c).acc = s.acc := rfl
@[simp] theorem State.pull_maxr (c : Config) (s : State) : (s.pull c).maxr = s.maxr := rfl
@[simp] theorem State.pull_rem (c : Config) (s : State) : (s.pull c).rem = s.rem := rfl
@[simp] theorem State.pull_rsp (c : Config) (s : State) : (s.pull c).rsp = s.rsp := rfl
@[simp] theorem State.pull_rst (c : Config) (s : State) : (s.pull c).rst = s.rst := rfl
@[simp] theorem State.pull_seedSel (c : Config) (s : State) : (s.pull c).seedSel = s.seedSel := rfl
@[simp] theorem State.pull_seedIn (c : Config) (s : State) : (s.pull c).seedIn = s.seedIn := rfl
@[simp] theorem State.pull_cmd (c : Config) (s : State) : (s.pull c).cmd = s.cmd := rfl
@[simp] theorem State.pull_rspReady (c : Config) (s : State) : (s.pull c).rspReady = s.rspReady := rfl
@[simp] theorem State.pull_script (c : Config) (s : State) : (s.pull c).script = s.script := rfl
@[simp] theorem State.pull_sent (c : Config) (s : State) : (s.pull c).sent = s.sent := rfl

/-! ### `State.construct` -/

@[simp] theorem State.construct_state (c : Config) (s : State) : (s.construct c).state = seedState c s.seedSel s.seedIn := rfl
@[simp] theorem State.construct_q (c : Config) (s : State) : (s.construct c).q = [] := rfl
@[simp] theorem State.construct_head (c : Config) (s : State) : (s.construct c).head = 0 := rfl
@[simp] theorem State.construct_phase (c : Config) (s : State) : (s.construct c).phase = .idle := rfl
@[simp] theorem State.construct_opr (c : Config) (s : State) : (s.construct c).opr = 0 := rfl
@[simp] theorem State.construct_kreg (c : Config) (s : State) : (s.construct c).kreg = 0 := rfl
@[simp] theorem State.construct_cnt (c : Config) (s : State) : (s.construct c).cnt = 0 := rfl
@[simp] theorem State.construct_acc (c : Config) (s : State) : (s.construct c).acc = 0 := rfl
@[simp] theorem State.construct_maxr (c : Config) (s : State) : (s.construct c).maxr = 0 := rfl
@[simp] theorem State.construct_rem (c : Config) (s : State) : (s.construct c).rem = 0 := rfl
@[simp] theorem State.construct_rsp (c : Config) (s : State) : (s.construct c).rsp = ⟨.okLast, 0⟩ := rfl
@[simp] theorem State.construct_rst (c : Config) (s : State) : (s.construct c).rst = s.rst := rfl
@[simp] theorem State.construct_seedSel (c : Config) (s : State) : (s.construct c).seedSel = s.seedSel := rfl
@[simp] theorem State.construct_seedIn (c : Config) (s : State) : (s.construct c).seedIn = s.seedIn := rfl
@[simp] theorem State.construct_cmd (c : Config) (s : State) : (s.construct c).cmd = s.cmd := rfl
@[simp] theorem State.construct_rspReady (c : Config) (s : State) : (s.construct c).rspReady = s.rspReady := rfl
@[simp] theorem State.construct_script (c : Config) (s : State) : (s.construct c).script = s.script := rfl
@[simp] theorem State.construct_sent (c : Config) (s : State) : (s.construct c).sent = s.sent := rfl

end Sys2Proof.Machine
end

