-- ==== Sys2Proof/Laws/Step.lean ====
section
/-!
SUPPORT. What a step can do, said once: the step by `rst` and `PHASE` (44_sequencer.md R147, R148), one equation per branch of each
phase's own step, what an acceptance can do, and what a turn of the host can do. Proofs about a step cite these and unfold nothing.
-/

namespace Sys2Proof.Machine

/-! ### The step, by phase -/

theorem step_reset {s : State} (hr : s.rst = true) : step s = .next (hostTurn hw (s.construct hw)) := by
  simp [step, blockStep, hr, mapNext]

theorem step_idle {s : State} (hr : s.rst = false) (hp : s.phase = .idle) : step s = mapNext (hostTurn hw) (acceptStep s) := by
  simp [step, blockStep, hr, hp]

theorem step_need {s : State} (hr : s.rst = false) (hp : s.phase = .need) : step s = mapNext (hostTurn hw) (needStep s) := by
  simp [step, blockStep, hr, hp]

theorem step_fill {s : State} (hr : s.rst = false) (hp : s.phase = .fill) : step s = mapNext (hostTurn hw) (fillStep hw s) := by
  simp [step, blockStep, hr, hp]

theorem step_check {s : State} (hr : s.rst = false) (hp : s.phase = .check) : step s = mapNext (hostTurn hw) (checkStep s) := by
  simp [step, blockStep, hr, hp]

theorem step_resp {s : State} (hr : s.rst = false) (hp : s.phase = .resp) : step s = mapNext (hostTurn hw) (respStep s) := by
  simp [step, blockStep, hr, hp]

theorem step_eq_mapNext (s : State) : step s = mapNext (hostTurn hw) (blockStep s) := rfl

theorem mapNext_next {f : State → State} {r : Result} {t : State} (h : mapNext f r = .next t) : ∃ u, r = .next u ∧ t = f u := by
  cases r with
  | next u => exact ⟨u, rfl, by cases h; rfl⟩
  | fault _ => cases h
  | refused _ => cases h

/-- A step that answers a next state is a step of the block, then the host's turn. -/
theorem step_next {s t : State} (h : step s = .next t) : ∃ u, blockStep s = .next u ∧ t = hostTurn hw u := mapNext_next h

/-! ### The steps of each phase, branch by branch -/

theorem needStep_check {s : State} (h : s.cnt = s.kreg) : needStep s = .next { s with phase := .check } := by
  simp [needStep, h]

theorem needStep_fill {s : State} (h : s.cnt ≠ s.kreg) (hq : s.q = []) : needStep s = .next { s with phase := .fill } := by
  simp [needStep, h, hq]

theorem needStep_draw {s : State} {b : Bit} {rest : List Bit} (h : s.cnt ≠ s.kreg) (hq : s.q = b :: rest) (hc : s.cnt.toNat < 64) :
    needStep s = .next (s.drawBit b) := by
  simp [needStep, h, hq, hc]

/-- Everything step `NEED` can do, if it goes on. -/
theorem needStep_cases {s t : State} (h : needStep s = .next t) :
    (s.cnt = s.kreg ∧ t = { s with phase := .check }) ∨
    (s.cnt ≠ s.kreg ∧ s.q = [] ∧ t = { s with phase := .fill }) ∨
    (s.cnt ≠ s.kreg ∧ s.cnt.toNat < 64 ∧ ∃ b rest, s.q = b :: rest ∧ t = s.drawBit b) := by
  unfold needStep at h
  split at h
  · next hc => cases h; exact .inl ⟨hc, rfl⟩
  · next hc =>
    split at h
    · next hq => cases h; exact .inr (.inl ⟨hc, hq, rfl⟩)
    · next b rest hq =>
      split at h
      · next hl => cases h; exact .inr (.inr ⟨hc, hl, b, rest, hq, rfl⟩)
      · cases h

theorem fillStep_pull {c : Config} {s : State} (h : lowFlag c s.q = true) : fillStep c s = .next (s.pull c) := by
  simp [fillStep, h]

theorem fillStep_done {c : Config} {s : State} (h : lowFlag c s.q = false) : fillStep c s = .next { s with phase := .need } := by
  simp [fillStep, h]

/-- Everything step `FILL` can do: it always goes on. -/
theorem fillStep_cases {c : Config} {s t : State} (h : fillStep c s = .next t) :
    (lowFlag c s.q = true ∧ t = s.pull c) ∨ (lowFlag c s.q = false ∧ t = { s with phase := .need }) := by
  unfold fillStep at h
  split at h
  · next hl => cases h; exact .inl ⟨hl, rfl⟩
  · next hl => cases h; exact .inr ⟨by simpa using hl, rfl⟩

theorem checkStep_pack {s : State} (ho : s.opr = 1 ∨ s.opr = 3) : checkStep s = .next (s.offerReply .okLast s.acc) := by
  rcases ho with h | h <;> simp [checkStep, h, checkPack]

theorem checkStep_bits {s : State} (ho : s.opr = 2) (hm : s.rem ≠ 0) : checkStep s =
    .next ({ s with rem := s.rem - 1 }.offerReply (if s.rem - 1 = 0 then .okLast else .okMore) s.acc) := by
  have hc : checkStep s = checkBits s := by simp only [checkStep, ho]; rfl
  rw [hc, checkBits, if_neg hm]

theorem checkStep_accept {s : State} (ho : s.opr = 4) (ha : acceptFlag s.acc s.maxr = true) :
    checkStep s = .next (s.offerReply .okLast s.acc) := by
  simp [checkStep, ho, checkBounded, ha]

theorem checkStep_reject {s : State} (ho : s.opr = 4) (ha : acceptFlag s.acc s.maxr = false) :
    checkStep s = .next s.restartPack := by
  simp [checkStep, ho, checkBounded, ha]

/-- Everything step `CHECK` can do, if it goes on. -/
theorem checkStep_cases {s t : State} (h : checkStep s = .next t) :
    ((s.opr = 1 ∨ s.opr = 3) ∧ t = s.offerReply .okLast s.acc) ∨
    (s.opr = 2 ∧ s.rem ≠ 0 ∧
      t = { s with rem := s.rem - 1 }.offerReply (if s.rem - 1 = 0 then .okLast else .okMore) s.acc) ∨
    (s.opr = 4 ∧ acceptFlag s.acc s.maxr = true ∧ t = s.offerReply .okLast s.acc) ∨
    (s.opr = 4 ∧ acceptFlag s.acc s.maxr = false ∧ t = s.restartPack) := by
  have hcases : ∀ o : BitVec 3, o = 0 ∨ o = 1 ∨ o = 2 ∨ o = 3 ∨ o = 4 ∨ o = 5 ∨ o = 6 ∨ o = 7 := by decide
  rcases hcases s.opr with ho | ho | ho | ho | ho | ho | ho | ho
  · simp [checkStep, ho] at h
  · rw [checkStep_pack (.inl ho)] at h; cases h; exact .inl ⟨.inl ho, rfl⟩
  · by_cases hm : s.rem = 0
    · have hc : checkStep s = checkBits s := by simp only [checkStep, ho]; rfl
      rw [hc, checkBits, if_pos hm] at h; cases h
    · rw [checkStep_bits ho hm] at h; cases h; exact .inr (.inl ⟨ho, hm, rfl⟩)
  · rw [checkStep_pack (.inr ho)] at h; cases h; exact .inl ⟨.inr ho, rfl⟩
  · cases ha : acceptFlag s.acc s.maxr
    · rw [checkStep_reject ho ha] at h; cases h; exact .inr (.inr (.inr ⟨ho, rfl, rfl⟩))
    · rw [checkStep_accept ho ha] at h; cases h; exact .inr (.inr (.inl ⟨ho, rfl, rfl⟩))
  · simp [checkStep, ho] at h
  · simp [checkStep, ho] at h
  · simp [checkStep, ho] at h

theorem respStep_hold {s : State} (h : s.rspReady = false) : respStep s = .next s := by simp [respStep, h]

theorem respStep_more {s : State} (h : s.rspReady = true) (hm : s.rsp.status = .okMore) :
    respStep s = .next s.transfer.restartPack := by
  simp [respStep, h, State.afterBeat, hm]

theorem respStep_last {s : State} (h : s.rspReady = true) (hm : s.rsp.status ≠ .okMore) :
    respStep s = .next s.transfer.endCommand := by
  cases hst : s.rsp.status <;> simp [respStep, h, State.afterBeat, hst] at hm ⊢

/-- Everything step `RESP` can do: it always goes on. -/
theorem respStep_cases {s t : State} (h : respStep s = .next t) :
    (s.rspReady = false ∧ t = s) ∨
    (s.rspReady = true ∧ s.rsp.status = .okMore ∧ t = s.transfer.restartPack) ∨
    (s.rspReady = true ∧ s.rsp.status ≠ .okMore ∧ t = s.transfer.endCommand) := by
  cases hy : s.rspReady
  · rw [respStep_hold hy] at h; cases h; exact .inl ⟨rfl, rfl⟩
  · by_cases hm : s.rsp.status = .okMore
    · rw [respStep_more hy hm] at h; cases h; exact .inr (.inl ⟨rfl, hm, rfl⟩)
    · rw [respStep_last hy hm] at h; cases h; exact .inr (.inr ⟨rfl, hm, rfl⟩)

/-! ### Acceptance -/

/-- What every acceptance leaves alone, whatever the command: `STATE`, `Q`, the ports, the host's script and the beats sent; and where
it leads. -/
theorem exec_frame {i : Instr} {s t : State} (h : exec i s = .next t) :
    t.state = s.state ∧ t.q = s.q ∧ t.head = s.head ∧ t.rst = s.rst ∧ t.seedSel = s.seedSel ∧ t.seedIn = s.seedIn ∧ t.cmd = s.cmd ∧
    t.rspReady = s.rspReady ∧ t.script = s.script ∧ t.sent = s.sent ∧ t.opr = opcodeOf i ∧ (t.phase = .need ∨ t.phase = .resp) := by
  cases i <;> simp only [exec, execBit, execBits, execPack, execBounded, execReserved0, execReserved5, execReserved6, execReserved7] at h
  case bits n => split at h <;> cases h <;> simp [opcodeOf]
  case pack k => split at h <;> cases h <;> simp [opcodeOf, State.refuse]
  case bounded m => split at h <;> cases h <;> simp [opcodeOf]
  all_goals cases h; simp [opcodeOf, State.refuse]

/-! ### The host's turn -/

theorem hostTurn_nil (c : Config) {s : State} (h : s.script = []) : hostTurn c s = s := by
  simp [hostTurn, h]

/-- Everything a turn of the host can do: change the command channel, `rsp_ready` and `rst` alone, or assert reset. -/
theorem hostTurn_cases (c : Config) (s : State) :
    (∃ cmd rspReady rst script, hostTurn c s = { s with cmd := cmd, rspReady := rspReady, rst := rst, script := script } ∧
      (s.rst = false → rst = false) ∧ (∀ w, s.cmd = some w → cmd = some w)) ∨
    (∃ sel seedIn script, hostTurn c s =
      ({ s with rst := true, seedSel := sel, seedIn := seedIn, script := script } : State).construct c) := by
  unfold hostTurn
  split
  · exact .inl ⟨s.cmd, s.rspReady, s.rst, s.script, rfl, id, fun _ h => h⟩
  · next act rest _ =>
    cases act with
    | pause => exact .inl ⟨s.cmd, s.rspReady, s.rst, rest, rfl, id, fun _ h => h⟩
    | offer w =>
      cases hc : s.cmd with
      | none =>
        exact .inl ⟨some w, s.rspReady, s.rst, rest, by simp [hostAct, hc], id, fun _ h => by cases h⟩
      | some w' => exact .inl ⟨s.cmd, s.rspReady, s.rst, s.script, by simp only [hostAct, hc]; rw [← hc], id, fun _ h => by rw [hc]; exact h⟩
    | setReady ready => exact .inl ⟨s.cmd, ready, s.rst, rest, rfl, id, fun _ h => h⟩
    | assertReset sel seedIn => exact .inr ⟨sel, seedIn, rest, rfl⟩
    | releaseReset => exact .inl ⟨s.cmd, s.rspReady, false, rest, rfl, fun _ => rfl, fun _ h => h⟩

end Sys2Proof.Machine
end

