-- ==== Sys2Proof/Laws/Run.lean ====
section
/-!
SUPPORT. Several steps in a row under a host that does nothing: how runs compose, and the runs of the shared parts of every command, a
refill, one bit, one pack, one last beat, each agreeing with its command-level operation (44_sequencer.md R149).
-/

namespace Sys2Proof.Machine

theorem runSteps_add {m : Nat} {s t : State} (h : runSteps m s = .next t) (n : Nat) :
    runSteps (m + n) s = runSteps n t := by
  induction m generalizing s with
  | zero => cases h; simp
  | succ m ih =>
    rw [Nat.succ_add]
    simp only [runSteps] at h ⊢
    cases hs : step s with
    | next u => rw [hs] at h; exact ih h
    | fault r => rw [hs] at h; cases h
    | refused r => rw [hs] at h; cases h

theorem runSteps_one {s t : State} (h : step s = .next t) : runSteps 1 s = .next t := by
  simp [runSteps, h]

theorem runSteps_succ {s t : State} (h : step s = .next t) (n : Nat) : runSteps (n + 1) s = runSteps n t := by
  simp [runSteps, h]

/-- With nothing left in the script, the host's turn changes nothing. -/
theorem step_quiet {s t : State} (h : step s = mapNext (hostTurn hw) (.next t)) (hs : t.script = []) : step s = .next t := by
  rw [h]
  show Host.Outcome.next (hostTurn hw t) = _
  rw [hostTurn_nil hw hs]

/-- A refill that ends, step by step. -/
theorem run_fill (fuel : Nat) : ∀ (s : State) (g' : Gen), s.rst = false → s.script = [] → s.phase = .fill →
    refill hw fuel s.gen = some g' →
    ∃ n, runSteps n s = .next { s with state := g'.state, q := g'.q, phase := .need } := by
  have done : ∀ (s : State), s.rst = false → s.script = [] → s.phase = .fill → lowFlag hw s.q = false →
      runSteps 1 s = .next { s with phase := .need } := fun s hr hs hp hl =>
    runSteps_one (step_quiet (by rw [step_fill hr hp, fillStep_done hl]) hs)
  induction fuel with
  | zero =>
    intro s g' hr hs hp h
    cases hl : lowFlag hw s.q
    · rw [refill_high hl] at h; cases h
      exact ⟨1, by rw [done s hr hs hp hl]; rfl⟩
    · rw [refill_zero hl] at h; cases h
  | succ f ih =>
    intro s g' hr hs hp h
    cases hl : lowFlag hw s.q
    · rw [refill_high hl] at h; cases h
      exact ⟨1, by rw [done s hr hs hp hl]; rfl⟩
    · rw [refill_succ hl] at h
      obtain ⟨n, hn⟩ := ih (s.pull hw) g' hr hs hp h
      refine ⟨n + 1, ?_⟩
      rw [runSteps_succ (step_quiet (t := s.pull hw) (by rw [step_fill hr hp, fillStep_pull hl]) hs), hn]
      rfl

/-- One bit drawn into the accumulator, with its refill where `Q` is empty. -/
theorem run_bit (fuel : Nat) (s : State) (b : Bit) (g' : Gen) (hr : s.rst = false) (hs : s.script = []) (hp : s.phase = .need)
    (hk : s.cnt ≠ s.kreg) (hc : s.cnt.toNat < 64) (h : nextBit hw fuel s.gen = some (b, g')) :
    ∃ n, runSteps n s = .next { s with
      state := g'.state, q := g'.q, head := s.head + 1, acc := writeBit s.acc s.cnt.toNat b, cnt := s.cnt + 1 } := by
  have draw : ∀ (u : State) (rest : List Bit), u.rst = false → u.script = [] → u.phase = .need → u.cnt ≠ u.kreg →
      u.cnt.toNat < 64 → u.q = b :: rest → runSteps 1 u = .next (u.drawBit b) := by
    intro u rest h1 h2 h3 h4 h5 h6
    exact runSteps_one (step_quiet (by rw [step_need h1 h3, needStep_draw h4 h6 h5]) h2)
  unfold nextBit at h
  cases hq : s.q with
  | cons b0 rest =>
    have he : emptyFlag s.gen.q = false := by simp [emptyFlag, State.gen, hq]
    rw [he] at h
    simp only [genPop, State.gen, hq, Option.some.injEq, Prod.mk.injEq, Bool.false_eq_true, if_false] at h
    obtain ⟨rfl, rfl⟩ := h
    refine ⟨1, ?_⟩
    rw [draw s rest hr hs hp hk hc hq]
    simp [State.drawBit, State.fifoPop, hq]
  | nil =>
    have he : emptyFlag s.gen.q = true := by simp [emptyFlag, State.gen, hq]
    rw [he, if_pos rfl] at h
    obtain ⟨k, h1, h2⟩ := Option.bind_eq_some_iff.mp h
    unfold genPop at h2
    split at h2
    · cases h2
    · next b0 rest hkq =>
      cases h2
      obtain ⟨n, hn⟩ := run_fill fuel { s with phase := .fill } k hr hs rfl h1
      refine ⟨1 + (n + 1), ?_⟩
      rw [runSteps_add (runSteps_one (step_quiet (t := { s with phase := .fill }) (by rw [step_need hr hp, needStep_fill hk hq]) hs)), runSteps_add hn]
      rw [draw { s with state := k.state, q := k.q, phase := .need } rest hr hs rfl hk hc hkq]
      simp [State.drawBit, State.fifoPop, hkq, hp]

/-- The rest of a pack, up to step `CHECK`. -/
theorem run_pack (fuel n : Nat) : ∀ (s : State) (v : Word) (g' : Gen), s.rst = false → s.script = [] → s.phase = .need →
    s.kreg.toNat = s.cnt.toNat + n → s.kreg.toNat ≤ 64 → s.acc.toNat < 2 ^ s.cnt.toNat →
    packLoop hw fuel n s.cnt.toNat s.acc s.gen = some (v, g') →
    ∃ m, runSteps m s = .next { s with
      state := g'.state, q := g'.q, head := s.head + BitVec.ofNat 6 n, acc := v, cnt := s.kreg, phase := .check } := by
  induction n with
  | zero =>
    intro s v g' hr hs hp hk _ _ h
    cases h
    have hck : s.cnt = s.kreg := by apply BitVec.eq_of_toNat_eq; omega
    refine ⟨1, ?_⟩
    rw [runSteps_one (step_quiet (t := { s with phase := .check }) (by rw [step_need hr hp, needStep_check hck]) hs)]
    simp [State.gen, hck]
  | succ n ih =>
    intro s v g' hr hs hp hk hk64 ha h
    simp only [packLoop] at h
    split at h
    · cases h
    · next b g1 h1 =>
      have hne : s.cnt ≠ s.kreg := by intro hc; rw [hc] at hk; omega
      obtain ⟨m1, hm1⟩ := run_bit fuel s b g1 hr hs hp hne (by omega) h1
      have hcnt : (s.cnt + 1).toNat = s.cnt.toNat + 1 := by
        rw [BitVec.toNat_add]; simp; omega
      obtain ⟨m2, hm2⟩ := ih
        { s with state := g1.state, q := g1.q, head := s.head + 1, acc := writeBit s.acc s.cnt.toNat b, cnt := s.cnt + 1 } v g'
        hr hs hp (by show s.kreg.toNat = (s.cnt + 1).toNat + n; omega) hk64
        (by show (writeBit s.acc s.cnt.toNat b).toNat < 2 ^ (s.cnt + 1).toNat
            rw [hcnt, writeBit_eq_orBit _ _ _ ha]; exact orBit_lt _ _ _ ha)
        (by show packLoop hw fuel n (s.cnt + 1).toNat (writeBit s.acc s.cnt.toNat b) g1 = _
            rw [hcnt, writeBit_eq_orBit _ _ _ ha]; exact h)
      refine ⟨m1 + m2, ?_⟩
      rw [runSteps_add hm1, hm2]
      simp only [Host.Outcome.next.injEq, State.mk.injEq, true_and, and_true]
      rw [Nat.add_comm n 1, BitVec.ofNat_add, BitVec.add_assoc]; rfl

/-- The last beat of a command is taken, and the block is in `IDLE`. -/
theorem run_last {s : State} (hr : s.rst = false) (hs : s.script = []) (hy : s.rspReady = true) (hp : s.phase = .resp)
    (hm : s.rsp.status ≠ .okMore) : runSteps 1 s = .next s.transfer.endCommand :=
  runSteps_one (step_quiet (by rw [step_resp hr hp, respStep_last hy hm]) hs)

end Sys2Proof.Machine
end

