-- ==== Sys2Proof/Laws/Scrambler.lean ====
section
/-!
SUPPORT. The two maps of the scrambler, stage by stage: each stage and the multiplication are injective (40_scrambler.md R87), so they are bijections of the 64-bit words.
-/

namespace Sys2Proof.Machine

theorem shiftXor_injective (d : ShiftDir) (k : Nat) (h0 : 0 < k) : Function.Injective (shiftXor d k) := by
  intro x y h
  have hbit : ∀ i, i < 64 → wordBit (shiftXor d k x) i = wordBit (shiftXor d k y) i := by intro i _; rw [h]
  cases d with
  | left =>
    apply word_ext
    intro i
    induction i using Nat.strong_induction_on with
    | _ i ih =>
      intro hi
      have hb := hbit i hi
      simp only [shiftXor, shiftBy, wordBit_xor, wordBit_shl _ _ _ hi] at hb
      by_cases hk : k ≤ i
      · rw [if_pos hk, if_pos hk, ih (i - k) (by omega) (by omega)] at hb
        simpa using hb
      · simpa [hk] using hb
  | right =>
    apply word_ext
    have key : ∀ n i, 64 - n ≤ i → wordBit x i = wordBit y i := by
      intro n
      induction n with
      | zero => intro i hi; rw [wordBit_of_ge _ _ (by omega), wordBit_of_ge _ _ (by omega)]
      | succ n ih =>
        intro i hi
        by_cases h64 : i < 64
        · have hb := hbit i h64
          simp only [shiftXor, shiftBy, wordBit_xor, wordBit_shr] at hb
          rw [ih (k + i) (by omega)] at hb
          simpa using hb
        · rw [wordBit_of_ge _ _ (by omega), wordBit_of_ge _ _ (by omega)]
    exact fun i hi => key 64 i (by omega)

theorem mul64_injective (m : Word) (h : m.getLsbD 0 = true) : Function.Injective (fun x => mul64 x m) := by
  intro x y hxy
  have hodd : m.toNat % 2 = 1 := by
    have : m.toNat.testBit 0 = true := h
    simpa [Nat.testBit_zero] using this
  have hc : Nat.Coprime (2 ^ 64) m.toNat := (Nat.coprime_pow_left_iff (by norm_num) 2 m.toNat).mpr (Nat.coprime_two_left.mpr (Nat.odd_iff.mpr hodd))
  have hmod : x.toNat * m.toNat ≡ y.toNat * m.toNat [MOD 2 ^ 64] := by
    have := congrArg BitVec.toNat hxy
    simpa [mul64, BitVec.toNat_mul, Nat.ModEq] using this
  have := Nat.ModEq.cancel_right_of_coprime hc hmod
  apply BitVec.eq_of_toNat_eq
  rw [Nat.ModEq, Nat.mod_eq_of_lt x.isLt, Nat.mod_eq_of_lt y.isLt] at this
  exact this

theorem wordMap_bijective {f : Word → Word} (h : Function.Injective f) : Function.Bijective f := by
  have e : Word ≃ Fin (2 ^ 64) := ⟨BitVec.toFin, BitVec.ofFin, fun _ => rfl, fun _ => rfl⟩
  have : Finite Word := Finite.of_equiv _ e.symm
  exact Finite.injective_iff_bijective.mp h

theorem shiftXor_zero (d : ShiftDir) (k : Nat) : shiftXor d k 0 = 0 := by
  cases d <;> simp [shiftXor, shiftBy, shl, shr]

end Sys2Proof.Machine
end

