-- ==== Sys2Proof/Tests/Slice0.lean ====
section
/-!
SUPPORT. Tests, each with the vector of 95_test_vectors.md or the rule it is taken from, and a witness for every statement that has
hypotheses: a concrete state and operands that meet all of them, one for each clause at a boundary of its range.
-/

namespace Sys2Proof.Tests

open Sys2Proof Sys2Proof.Machine

/-! ### Helpers -/

/-- The step went on, to a state with this property. -/
def goesTo (r : Result) (p : State → Bool) : Bool :=
  match r with
  | .next t => p t
  | .fault _ => false
  | .refused _ => false

/-- Bits written as a number, the first bit of the list in bit 0. -/
def bitsOf (n v : Nat) : List Bit := (List.range n).map v.testBit

/-- A block in a given phase with a given `STATE` and `Q`, its working registers at their reset values. -/
def blockWith (phase : Phase) (state : Word) (q : List Bit) : State := { State.reset with phase := phase, state := state, q := q }

/-- The block after `.reset 1`. -/
def seedOne : State := blockWith .idle 1 []

/-! ### Well-formedness: an ill-formed term for each check -/

theorem test_illformed_bits : SourceLine.wellFormed (.bits (2 ^ 64)) = false := by decide
theorem test_illformed_pack : SourceLine.wellFormed (.pack (2 ^ 64)) = false := by decide
theorem test_illformed_bounded : SourceLine.wellFormed (.bounded (some (2 ^ 64))) = false := by decide
theorem test_illformed_cmd_op : SourceLine.wellFormed (.cmd 8 0) = false := by decide
theorem test_illformed_cmd_arg : SourceLine.wellFormed (.cmd 7 (2 ^ 64)) = false := by decide
theorem test_illformed_reset : SourceLine.wellFormed (.reset (some (2 ^ 64))) = false := by decide
theorem test_illformed_shift_zero : Config.wellFormed { hw with shA := 0 } = false := by decide
theorem test_illformed_shift_width : Config.wellFormed { hw with shB := 64 } = false := by decide
theorem test_illformed_shift_c : Config.wellFormed { hw with shC := 64 } = false := by decide
theorem test_illformed_even_multiplier : Config.wellFormed { hw with mult := 2 } = false := by decide
theorem test_illformed_threshold : Config.wellFormed { hw with thresh := 0 } = false := by decide
theorem test_illformed_zero_substitute : Config.wellFormed { hw with zeroSeedSubst := 0 } = false := by decide
theorem test_illformed_pairs : Config.wellFormed { hw with pairs := 33 } = false := by decide
theorem test_illformed_pack_max : Config.wellFormed { hw with packMax := 65 } = false := by decide
theorem test_illformed_default_max : Config.wellFormed { hw with defaultMax := 2 ^ 64 } = false := by decide
theorem test_wellformed_hw : Config.wellFormed hw = true := by decide

/-! ### Decoding (95_test_vectors.md V48), every value of `op`, and a number that is no command word -/

theorem test_decode_bit : decode 0x10000000000000000#67 = .bit 0 := by decide
theorem test_decode_bit_ignored_arg : decode 0x1000000000000DEAD#67 = .bit 0xDEAD := by decide
theorem test_decode_bits : decode 0x200000000000186A0#67 = .bits 100000 := by decide
theorem test_decode_pack : decode 0x30000000000000040#67 = .pack 64 := by decide
theorem test_decode_bounded : decode 0x40000000000000100#67 = .bounded 256 := by decide
theorem test_decode_reserved0 : decode 0x00000000000000000#67 = .reserved0 0 := by decide
theorem test_decode_reserved5 : decode 0x50000000000000000#67 = .reserved5 0 := by decide
theorem test_decode_reserved6 : decode 0x60000000000000001#67 = .reserved6 1 := by decide
theorem test_decode_reserved7 : decode 0x70000000000000123#67 = .reserved7 0x123 := by decide
theorem test_decode_too_long : decodeNat (2 ^ 67) = .error .notACommandWord := rfl
theorem test_encode_pack : encode (.pack 65) = 0x30000000000000041#67 := by decide
theorem test_table_word : decodeTableWord 67 0x4FFFFFFFFFFFFFFFF = some (.bounded 0xFFFFFFFFFFFFFFFF) := by decide
theorem test_beat_word : beatWord ⟨.err, 2⟩ = 0x30000000000000002#66 := by decide
theorem test_beat_word_pack : beatWord ⟨.okLast, 0x7C43F03A300EF9C7⟩ = 0x07C43F03A300EF9C7#66 := by decide

/-! ### Text form (V48, R71 to R73) -/

theorem test_line_default_max : assembleText hw ['b', 'o', 'u', 'n', 'd', 'e', 'd'] = .ok (.word 0x40000000000000100#67) := by rfl
theorem test_line_hex_comment : assembleText hw ['P', 'A', 'C', 'K', ' ', '0', 'x', '4', '1', ' ', '#', ' ', 'x'] =
    .ok (.word 0x30000000000000041#67) := by rfl
theorem test_line_raw_word :
    assembleText hw ['.', 'c', 'm', 'd', ' ', 'o', 'p', '=', '7', ' ', 'a', 'r', 'g', '=', '0', 'x', '1', '2', '3'] =
    .ok (.word 0x70000000000000123#67) := by rfl
theorem test_line_reset_seed : assembleText hw ['.', 'r', 'e', 's', 'e', 't', ' ', '1'] = .ok (.reset true 1) := by rfl
theorem test_line_reset_default : assembleText hw ['.', 'r', 'e', 's', 'e', 't'] = .ok (.reset false 0) := by rfl
theorem test_line_alias : assembleText hw ['n', 'e', 'x', 't', '_', 'b', 'i', 't'] = .ok (.word 0x10000000000000000#67) := by rfl
theorem test_line_unknown : assembleText hw ['n', 'o', 'p'] = .error .unknownMnemonic := by rfl

/-! ### CoreScrambler (V1 to V5) -/

theorem test_scrambler_v1 : (xsState hw 1, xsWord hw 1) = (0x0000008008001001, 0xC578FEF1053EAD1D) := by decide
theorem test_scrambler_v3 : (stageA hw 0x499602D2, stageB hw (stageA hw 0x499602D2), xsWord hw 0x499602D2) =
    (0x0000049929BB22D2, 0x0000049929B96E46, 0x646DC3BF1DBBEBEE) := by decide
theorem test_scrambler_v4 : (xsState hw 0x8000000000000000, xsWord hw 0x8000000000000000) =
    (0x8000004000000000, 0x5B37474000000000) := by decide
theorem test_scrambler_v5 : (xsState hw 0xFFFFFFFFFFFFFFFF, xsWord hw 0xFFFFFFFFFFFFFFFF) =
    (0x0000007FF8000FFF, 0x65F647FC9664F2E3) := by decide

/-! ### WhiteningBuffer (V9 to V19, V1) -/

theorem test_whiten_v9 : group hw 0 = [] := by decide
theorem test_whiten_v10 : group hw 0xFFFFFFFFFFFFFFFF = [] := by decide
theorem test_whiten_v11 : group hw 0xAAAAAAAAAAAAAAAA = List.replicate 32 false := by decide
theorem test_whiten_v12 : vn (bitsOf 8 0xB9) = [true, false, false] := by decide
theorem test_whiten_v13 : vn (bitsOf 8 0x69) = [true, false, false, true] := by decide
theorem test_whiten_v16 : (group hw 0x8000000000000000, group hw 0x4000000000000000) = ([false], [true]) := by decide
theorem test_whiten_v17 : group hw 0x0123456789ABCDEF = [false, true, false, false, false, true, false, false] ++
    [true, false, true, true, true, true, false, true] := by decide
theorem test_whiten_v19 : (group hw 0x0000000180000000, group hw 3) = ([false, true], []) := by decide
theorem test_serial_v12 : (serialRun ⟨false, true, []⟩ (bitsOf 8 0xB9)).out = [true, false, false] := by decide

/-! ### Commands, command level -/

/-- S7: bits 1, 0, 1 pack to 5. -/
theorem test_pack_order : runCommand hw 0 (.pack 3) ⟨1, [true, false, true]⟩ = some ([⟨.okLast, 5⟩], ⟨1, []⟩) := by decide
/-- V25: 32 bits use up one refill and start no other. -/
theorem test_pack_v25 : runCommand hw 2 (.pack 32) ⟨1, []⟩ = some ([⟨.okLast, 0x300EF9C7⟩], ⟨0x0060000025000005, []⟩) := by decide
/-- V27: the widest pack. -/
theorem test_pack_v27 : runCommand hw 2 (.pack 64) ⟨1, []⟩ =
    some ([⟨.okLast, 0x7C43F03A300EF9C7⟩], ⟨0x04C10E02C201A84A, [false, true, false, true]⟩) := by decide
/-- V28: the whole operand is compared. -/
theorem test_pack_v28 : runCommand hw 2 (.pack 128) ⟨1, []⟩ = some ([⟨.err, 2⟩], ⟨1, []⟩) := by decide
/-- V34: a rejected candidate. -/
theorem test_bounded_v34 : (runCommand hw 2 (.bounded 6) ⟨1, []⟩).map (fun r => (r.1, r.2.q.length)) =
    some ([⟨.okLast, 0⟩], 26) := by decide
/-- V38: a power of two draws one bit more, three candidates. -/
theorem test_bounded_v38 : runCommand hw 3 (.bounded 256) ⟨1, []⟩ =
    some ([⟨.okLast, 3⟩], ⟨0x0060000025000005, [false, true, true, false, false]⟩) := by decide
/-- P3 step 5: an unsigned comparison of 64 bits. -/
theorem test_bounded_unsigned : (runCommand hw 3 (.bounded 0xFFFFFFFFFFFFFFFF) ⟨0x04C10E02C201A84A, [false, true, false, true]⟩).map
    (fun r => (r.1, r.2.state, r.2.q.length)) = some ([⟨.okLast, 0xF92721369B52B26A⟩], 0x63F8FC71A77F12FA, 20) := by decide
/-- V47 row 2: the first bit after the default reset. -/
theorem test_bit_v47 : (runCommand hw 3 (.bit 0) ⟨0x499602D2, []⟩).map (fun r => (r.1, r.2.state, r.2.q.length)) =
    some ([⟨.okLast, 0⟩], 0xA5F7F3C579E7343F, 38) := by decide
/-- S6: one beat a bit, the last one `OK_LAST`. -/
theorem test_bits_beats : runCommand hw 0 (.bits 3) ⟨1, [true, false, true, true]⟩ =
    some ([⟨.okMore, 1⟩, ⟨.okMore, 0⟩, ⟨.okLast, 1⟩], ⟨1, [true]⟩) := by decide

/-! ### Steps (V51, V52, R142 to R146), the word on the channel first -/

/-- V51 step 1: `bounded 2` is accepted. -/
theorem test_step_accept_bounded : goesTo (step (seedOne.withFetchWord 67 0x40000000000000002)) (fun t =>
    decide (t = { seedOne with phase := .need, opr := 4, maxr := 2, kreg := 2 })) = true := by decide
/-- V51 step 2: `Q` is empty and a bit is wanted. -/
theorem test_step_need_fill : goesTo (step { blockWith .need 1 [] with kreg := 2 }) (fun t => decide (t.phase = .fill)) = true := by decide
/-- V51 step 3: a word is pulled and its 14 bits appended. -/
theorem test_step_fill : goesTo (step (blockWith .fill 1 [])) (fun t =>
    decide (t.phase = .fill ∧ t.state = 0x0000008008001001 ∧ t.len = 14)) = true := by decide
/-- V51 step 5: 32 bits are enough. -/
theorem test_step_fill_done : goesTo (step (blockWith .fill 1 (List.replicate 32 true))) (fun t =>
    decide (t.phase = .need ∧ t.len = 32 ∧ t.state = 1)) = true := by decide
/-- V51 step 7: the second bit goes to position 1. -/
theorem test_step_draw : goesTo (step { blockWith .need 1 [true, false] with kreg := 2, cnt := 1, acc := 1 }) (fun t =>
    decide (t.phase = .need ∧ t.q = [false] ∧ t.head = 1 ∧ t.cnt = 2 ∧ t.acc = 3)) = true := by decide
/-- V51 step 9: a candidate that is not below the operand is rejected. -/
theorem test_step_reject : goesTo (step { blockWith .check 1 [] with opr := 4, maxr := 2, kreg := 2, cnt := 2, acc := 3 }) (fun t =>
    decide (t.phase = .need ∧ t.cnt = 0 ∧ t.acc = 0 ∧ t.maxr = 2 ∧ t.kreg = 2)) = true := by decide
/-- V51 step 13: the candidate is accepted. -/
theorem test_step_accept_candidate : goesTo (step { blockWith .check 1 [] with opr := 4, maxr := 2, kreg := 2, cnt := 2, acc := 1 })
    (fun t => decide (t.phase = .resp ∧ t.rsp = ⟨.okLast, 1⟩ ∧ t.rspOut = some 0x00000000000000001#66)) = true := by decide
/-- V52 step 4: `REM` counts down and the beat is `OK_MORE`. -/
theorem test_step_bits_more : goesTo (step { blockWith .check 1 [] with opr := 2, kreg := 1, cnt := 1, rem := 2 }) (fun t =>
    decide (t.phase = .resp ∧ t.rem = 1 ∧ t.rsp = ⟨.okMore, 0⟩)) = true := by decide
/-- V52 step 9: the last bit. -/
theorem test_step_bits_last : goesTo (step { blockWith .check 1 [] with opr := 2, kreg := 1, cnt := 1, rem := 1, acc := 1 }) (fun t =>
    decide (t.phase = .resp ∧ t.rem = 0 ∧ t.rsp = ⟨.okLast, 1⟩)) = true := by decide
/-- V52 step 5: the host does not take the beat. -/
theorem test_step_hold : goesTo (step { blockWith .resp 1 [true] with rspReady := false }) (fun t =>
    decide (t = { blockWith .resp 1 [true] with rspReady := false })) = true := by decide
/-- V52 step 6: an `OK_MORE` beat is taken, the next bit is drawn. -/
theorem test_step_more : goesTo (step { blockWith .resp 1 [] with rsp := ⟨.okMore, 0⟩, opr := 2, kreg := 1, cnt := 1, rem := 1 })
    (fun t => decide (t.phase = .need ∧ t.cnt = 0 ∧ t.sent = [⟨.okMore, 0⟩])) = true := by decide
/-- V52 step 10: the last beat is taken. -/
theorem test_step_last : goesTo (step { blockWith .resp 1 [] with rsp := ⟨.okLast, 1⟩ }) (fun t =>
    decide (t.phase = .idle ∧ t.sent = [⟨.okLast, 1⟩])) = true := by decide
/-- V50: a reserved word is refused. -/
theorem test_step_refuse : goesTo (step (seedOne.withFetchWord 67 0x70000000000000123)) (fun t =>
    decide (t = { seedOne with phase := .resp, opr := 7, rsp := ⟨.err, 1⟩ })) = true := by decide
/-- V28: `pack 65` is refused at acceptance. -/
theorem test_step_refuse_pack : goesTo (step (seedOne.withFetchWord 67 0x30000000000000041)) (fun t =>
    decide (t = { seedOne with phase := .resp, opr := 3, rsp := ⟨.err, 2⟩ })) = true := by decide
/-- R108: `bits 0`. -/
theorem test_step_bits_zero : goesTo (step (seedOne.withFetchWord 67 0x20000000000000000)) (fun t =>
    decide (t = { seedOne with phase := .resp, opr := 2, rsp := ⟨.doneEmpty, 0⟩ })) = true := by decide
/-- R192: a word offered while another waits is handed over after it. -/
theorem test_offer_waits : (hostTurn hw { seedOne with cmd := some 0, script := [.offer 1] }).cmd = some 0 := by decide
/-- V49: reset, rows 2 and 3. -/
theorem test_reset_v49 : (seedState hw false 0xDEADBEEF, seedState hw true 0, seedState hw true 0x8000000000000000) =
    (0x00000000499602D2, 1, 0x8000000000000000) := by decide
/-- R183: reset in the middle of a refill. -/
theorem test_reset_abandons : goesTo (step { blockWith .fill 5 [true] with script := [.assertReset true 9], opr := 4 }) (fun t =>
    decide (t.phase = .idle ∧ t.state = 9 ∧ t.q = [] ∧ t.opr = 0 ∧ t.rst = true ∧ t.cmdReady = false)) = true := by decide

/-! ### Witnesses: encoding -/

theorem witness_DecodeEncodeRoundTrip : Instr.wellFormed (.pack 0xFFFFFFFFFFFFFFFF) = true ∧ Instr.wellFormed (.reserved7 1) = true ∧
    Instr.wellFormed (.bit 0xDEAD) = true ∧ Instr.wellFormed (.bits 0) = true ∧ Instr.wellFormed (.bounded 1) = true := by decide
theorem witness_OpcodeMapByMask : (0x1000000000000DEAD#67 &&& 0x70000000000000000#67 = 0x10000000000000000#67) ∧
    (0x2FFFFFFFFFFFFFFFF#67 &&& 0x70000000000000000#67 = 0x20000000000000000#67) ∧
    (0x30000000000000001#67 &&& 0x70000000000000000#67 = 0x30000000000000000#67) ∧
    (0x4FFFFFFFFFFFFFFFF#67 &&& 0x70000000000000000#67 = 0x40000000000000000#67) ∧
    (0x00000000000000001#67 &&& 0x70000000000000000#67 = 0x00000000000000000#67) ∧
    (0x50000000000000001#67 &&& 0x70000000000000000#67 = 0x50000000000000000#67) ∧
    (0x60000000000000001#67 &&& 0x70000000000000000#67 = 0x60000000000000000#67) ∧
    (0x7FFFFFFFFFFFFFFFF#67 &&& 0x70000000000000000#67 = 0x70000000000000000#67) := by decide
theorem witness_TextFormAssembles : (2 ^ 64 - 1 < 2 ^ 64 ∧ 7 < 8) ∧ (2 ^ 64 ≤ 2 ^ 64) ∧ (8 ≤ 8) := by decide

/-! ### Witnesses: scrambler, whitening, FIFO -/

theorem witness_ScramblerBitByBit : (0 < 1 ∧ 1 < 64 ∧ 0 < 64) ∧ (0 < 63 ∧ 63 < 64) := by decide
theorem witness_ScramblerBijectiveNonzero : (1 : Word) ≠ 0 ∧ xsWord hw 1 = xsWord hw 1 := by decide
theorem witness_ScramblerAnyParameters : Config.wellFormed hw = true ∧
    Config.wellFormed { hw with shA := 63, dirA := .right, shB := 1, dirB := .left, mult := 1 } = true := by decide
theorem witness_RefillBounds : refill hw 2 ⟨1, []⟩ = some ⟨0x0060000025000005, group hw 0xC578FEF1053EAD1D ++ group hw 0xA5B882CBBE205191⟩ := by
  decide
theorem witness_RefillOnlyWhenEmpty : (nextBit hw 2 ⟨1, []⟩).isSome = true ∧ refill hw 1 ⟨1, []⟩ = none := by decide
theorem witness_RingRealisesFifo_reset : seedOne.q = [] ∧ seedOne.head = 0 := by decide
/-- A window that wraps: entries 63 and 0, with other bits in the dead entries. -/
theorem witness_RingRealisesFifo : Ring.realises ⟨0xC000000000000002#64, 63, 2⟩ { seedOne with q := [true, false], head := 63 } ∧
    ({ seedOne with q := [true, false], head := 63 } : State).fmem 63 = some true ∧ 2 + 62 ≤ 64 :=
  ⟨⟨by decide, by decide⟩, by decide, by decide⟩

/-! ### Witnesses: packing and sampling -/

theorem witness_PackTakesNextBits : 64 ≤ 64 ∧ (packBits hw 2 64 ⟨1, []⟩).isSome = true ∧ packBits hw 0 0 ⟨1, []⟩ = some (0, ⟨1, []⟩) := by
  decide
theorem witness_BitBitsPackAgree : (3 : Word) ≠ 0 ∧ (3 : Word).toNat ≤ 64 ∧
    runCommand hw 0 (.bits 0) ⟨1, []⟩ = some ([⟨.doneEmpty, 0⟩], ⟨1, []⟩) ∧
    runCommand hw 0 (.bits 3) ⟨1, [true, false, true]⟩ = some ([⟨.okMore, 1⟩, ⟨.okMore, 0⟩, ⟨.okLast, 1⟩], ⟨1, []⟩) := by decide
theorem witness_WidthOfMax : 1 ≤ (1 : Word).toNat ∧ 2 ≤ (256 : Word).toNat ∧ bitlen 256 = 9 ∧ bitlen 255 = 8 ∧
    bitlen 0xFFFFFFFFFFFFFFFF = 64 := by decide
theorem witness_SampleBelowMax : sample hw 0 6 ⟨1, []⟩ = none ∧ sample hw 1 1 ⟨1, []⟩ = some (0, ⟨1, []⟩) ∧
    sample hw 2 6 ⟨1, [true, true, true, true, false, true]⟩ = some (5, ⟨1, []⟩) := by decide
theorem witness_SampleTakesWholeAttempts : 2 ≤ (6 : Word).toNat ∧ sample hw 0 1 ⟨1, []⟩ = some (0, ⟨1, []⟩) ∧
    sample hw 2 6 ⟨1, [true, true, true, true, false, true]⟩ = some (5, ⟨1, []⟩) ∧
    sample hw 1 2 ⟨1, [true, false]⟩ = some (1, ⟨1, []⟩) := by decide
theorem witness_ZeroConsumptionCommands : 64 < (65 : Word).toNat := by decide
theorem witness_ReplyShapes :
    runCommand hw 0 (.bits 2) ⟨1, [true, false]⟩ = some ([⟨.okMore, 1⟩, ⟨.okLast, 0⟩], ⟨1, []⟩) ∧ (2 : Word) ≠ 0 ∧
    (runCommand hw 2 (.pack 64) ⟨1, []⟩).isSome = true ∧ (64 : Word).toNat ≤ 64 ∧
    runCommand hw 1 (.bounded 2) ⟨1, [true, false]⟩ = some ([⟨.okLast, 1⟩], ⟨1, []⟩) ∧ 1 ≤ (2 : Word).toNat ∧
    runCommand hw 0 (.bit 9) ⟨1, [true]⟩ = some ([⟨.okLast, 1⟩], ⟨1, []⟩) ∧
    runCommand hw 0 (.bits 0) ⟨1, []⟩ = some ([⟨.doneEmpty, 0⟩], ⟨1, []⟩) ∧
    runCommand hw 0 (.reserved5 9) ⟨1, []⟩ = some ([⟨.err, 1⟩], ⟨1, []⟩) := by decide
/-- V55: `bit` under thresholds 1 and 32. -/
theorem witness_RepliesIndependentOfThreshold : (1 : Nat) ≤ 1 ∧
    (runCommands hw 2 [.bit 0, .pack 0] (genReset hw true 1)).map (fun r => (r.1, r.2.state)) =
      some ([⟨.okLast, 1⟩, ⟨.okLast, 0⟩], 0x0060000025000005) ∧
    (runCommands { hw with thresh := 1 } 1 [.bit 0, .pack 0] (genReset { hw with thresh := 1 } true 1)).map (fun r => (r.1, r.2.state)) =
      some ([⟨.okLast, 1⟩, ⟨.okLast, 0⟩], 0x0000008008001001) := by decide

/-! ### Witnesses: the step machine -/

/-- The operands at which the clauses of acceptance meet: 0 and 1, 1 and 2, 64 and 65. -/
theorem witness_AcceptEachCommand : seedOne.phase = .idle ∧
    goesTo (exec (.bits 1) seedOne) (fun t => decide (t.phase = .need ∧ t.rem = 1)) = true ∧
    goesTo (exec (.pack 64) seedOne) (fun t => decide (t.phase = .need ∧ t.kreg = 64)) = true ∧
    goesTo (exec (.bounded 1) seedOne) (fun t => decide (t.phase = .resp ∧ t.maxr = 0)) = true ∧
    goesTo (exec (.bounded 2) seedOne) (fun t => decide (t.phase = .need ∧ t.kreg = 2)) = true := by decide
theorem witness_StepRunsDecodedCommand : seedOne.rst = false ∧ seedOne.phase = .idle ∧ seedOne.cmd = none ∧
    ({ seedOne with cmd := some 0x30000000000000041#67 } : State).cmd = some 0x30000000000000041#67 ∧
    decode 0x30000000000000041#67 = .pack 65 := by decide
theorem witness_NeedStepRule_complete : (blockWith .need 1 []).rst = false ∧ (blockWith .need 1 []).phase = .need ∧
    (blockWith .need 1 []).cnt = (blockWith .need 1 []).kreg := by decide
theorem witness_NeedStepRule_empty : ({ blockWith .need 1 [] with kreg := 64 } : State).cnt ≠ 64 ∧
    ({ blockWith .need 1 [] with kreg := 64 } : State).q = [] := by decide
/-- The last position, 63. -/
theorem witness_NeedStepRule_draw : ({ blockWith .need 1 [true] with kreg := 64, cnt := 63 } : State).cnt ≠ 64 ∧
    ({ blockWith .need 1 [true] with kreg := 64, cnt := 63 } : State).q = true :: [] ∧
    ({ blockWith .need 1 [true] with kreg := 64, cnt := 63 } : State).cnt.toNat ≤ 63 := by decide
theorem witness_FillStepRule : (blockWith .fill 1 (List.replicate 31 true)).phase = .fill ∧
    (blockWith .fill 1 (List.replicate 31 true)).rst = false ∧ (blockWith .fill 1 (List.replicate 31 true)).q.length < 32 ∧
    32 ≤ (blockWith .fill 1 (List.replicate 32 true)).q.length := by decide
theorem witness_CheckStepRule : (blockWith .check 1 []).rst = false ∧ (blockWith .check 1 []).phase = .check ∧
    ({ blockWith .check 1 [] with opr := 1 } : State).opr = 1 ∧
    ({ blockWith .check 1 [] with opr := 2, rem := 1 } : State).rem ≠ 0 ∧
    ({ blockWith .check 1 [] with opr := 4, maxr := 2, acc := 1 } : State).acc.toNat < 2 ∧
    ({ blockWith .check 1 [] with opr := 4, maxr := 2, acc := 2 } : State).maxr.toNat ≤ 2 := by decide
theorem witness_RespStepRule : (blockWith .resp 1 []).rst = false ∧ (blockWith .resp 1 []).phase = .resp ∧
    (blockWith .resp 1 []).rspReady = true ∧ (blockWith .resp 1 []).rsp.status ≠ .okMore ∧
    ({ blockWith .resp 1 [] with rspReady := false } : State).rspReady = false ∧
    ({ blockWith .resp 1 [] with rsp := ⟨.okMore, 1⟩ } : State).rsp.status = .okMore := by decide
theorem witness_OutputPortsFollowPhase : seedOne.rst = false ∧ ({ seedOne with rst := true } : State).rst = true ∧
    (blockWith .resp 1 []).rspValid = true ∧ seedOne.rspValid = false := by decide
/-- The four clauses: a word that waits, a beat that is taken, no beat, a word that is taken. -/
theorem witness_HandshakeTransfers :
    goesTo (step { blockWith .resp 1 [] with cmd := some 5 }) (fun _ => true) = true ∧
    ({ blockWith .resp 1 [] with cmd := some 5 } : State).cmdReady = false ∧
    ((blockWith .resp 1 []).rspValid && (blockWith .resp 1 []).rspReady) = true ∧
    (seedOne.rspValid && seedOne.rspReady) = false ∧ seedOne.cmdReady = true ∧ seedOne.script = [] ∧
    goesTo (step { seedOne with cmd := some 5 }) (fun _ => true) = true := by decide
theorem witness_PhaseGraph : (blockWith .fill 1 []).rst = false ∧
    goesTo (step (blockWith .fill 1 [])) (fun t => decide (t.rst = false ∧ t.phase = .fill)) = true := by decide
/-- A step of each of the three kinds. -/
theorem witness_ScramblerAndFifoWriters :
    goesTo (step (blockWith .fill 1 [])) (fun t => decide (t.rst = false ∧ t.state ≠ 1)) = true ∧
    goesTo (step { blockWith .need 1 [true] with kreg := 1 }) (fun t => decide (t.rst = false ∧ t.q = [])) = true ∧
    goesTo (step seedOne) (fun t => decide (t.rst = false ∧ t.q = [])) = true := by decide

/-! ### Witnesses: commands run to their end -/

theorem witness_BitCompletes : (blockWith .idle 1 [true]).attentive ∧ (blockWith .idle 1 [true]).phase = .idle ∧
    (blockWith .idle 1 [true]).q = true :: [] := by decide
theorem witness_BitsCompletes : (blockWith .idle 1 [true, false]).attentive ∧ (blockWith .idle 1 [true, false]).phase = .idle ∧
    (2 : Word).toNat ≤ (blockWith .idle 1 [true, false]).q.length ∧ (2 : Word) ≠ 0 ∧ (0 : Word).toNat ≤ seedOne.q.length := by decide
theorem witness_PackCompletes : (blockWith .idle 1 (List.replicate 63 true)).attentive ∧ (63 : Word).toNat ≤ 64 ∧
    (63 : Word).toNat ≤ (blockWith .idle 1 (List.replicate 63 true)).q.length ∧ (0 : Word).toNat ≤ seedOne.q.length := by decide
/-- `bounded 2` with the bits of 1 and of 3 in `Q`. -/
theorem witness_BoundedCompletesOrRetries : (blockWith .idle 1 [true, false]).attentive ∧ 2 ≤ (2 : Word).toNat ∧
    bitlen 2 ≤ (blockWith .idle 1 [true, false]).q.length ∧ bitsValue [true, false] < 2 ∧ 2 ≤ bitsValue [true, true] ∧
    2 ≤ bitsValue [false, true] := by decide
theorem witness_DegenerateBoundedCompletes : seedOne.attentive ∧ seedOne.phase = .idle ∧ (1 : Word).toNat ≤ 1 ∧ (0 : Word).toNat ≤ 1 := by
  decide
theorem witness_RefusalChangesNothing : seedOne.attentive ∧ seedOne.phase = .idle ∧ 64 < (65 : Word).toNat := by decide
theorem witness_CommandRefinesReference : seedOne.attentive ∧ seedOne.phase = .idle ∧
    (runCommand hw 3 (.bounded 256) seedOne.gen).isSome = true := by decide
/-- From `STATE` = 0, which no run reaches (R22), a `BIT` on an empty `Q` never ends. -/
theorem witness_EndlessCommandNeverIdle : (blockWith .idle 0 []).attentive ∧ (blockWith .idle 0 []).phase = .idle ∧
    ∀ fuel : Nat, runCommand hw fuel (.bit 0) (blockWith .idle 0 []).gen = none := by
  refine ⟨by decide, by decide, fun fuel => ?_⟩
  have hpull : genPull hw ⟨0, []⟩ = ⟨0, []⟩ := by decide
  have h : refill hw fuel ⟨0, []⟩ = none := by
    induction fuel with
    | zero => decide
    | succ n ih =>
      show refill hw n (genPull hw ⟨0, []⟩) = none
      rw [hpull, ih]
  show (((refill hw fuel ⟨0, []⟩).bind genPop).map _) = none
  rw [h]
  rfl
theorem witness_BitsDeliversEachBit : (blockWith .idle 1 [true, false]).attentive ∧ (blockWith .idle 1 [true, false]).phase = .idle ∧
    1 < (2 : Word).toNat ∧ takeBits hw 0 1 (blockWith .idle 1 [true, false]).gen = some ([true], ⟨1, [false]⟩) := by decide
/-- `pack 0` handed over and carried out: accepted, complete, offered, taken. -/
theorem witness_EndedRunsAreReferenceRuns : ({ seedOne with cmd := some 0x30000000000000000#67 } : State).noReset ∧
    goesTo (runSteps 4 { seedOne with cmd := some 0x30000000000000000#67 })
      (fun t => decide (t.phase = .idle ∧ t.sent = [⟨.okLast, 0⟩])) = true := by decide
theorem witness_StreamOrder : (blockWith .fill 1 []).noReset ∧
    goesTo (runSteps 2 (blockWith .fill 1 [])) (fun t => decide (t.len = 32)) = true := by decide
theorem witness_BlockIgnoresHostTiming : seedOne.sameBlock { seedOne with script := [.pause] } ∧ seedOne.noReset ∧
    ({ seedOne with script := [.pause] } : State).noReset ∧ goesTo (step seedOne) (fun _ => true) = true ∧
    goesTo (step { seedOne with script := [.pause] }) (fun _ => true) = true := by decide
/-- Two blocks with different working registers. -/
theorem witness_WorkingRegistersNotCarried : seedOne.attentive ∧ ({ seedOne with acc := 7, kreg := 9, rem := 3 } : State).attentive ∧
    ({ seedOne with acc := 7, kreg := 9, rem := 3 } : State).gen = seedOne.gen ∧ seedOne.cmd = none ∧
    goesTo (runSteps 4 (seedOne.withCommand (encode (.pack 0)))) (fun t => decide (t.phase = .idle)) = true ∧
    goesTo (runSteps 4 (({ seedOne with acc := 7, kreg := 9, rem := 3 } : State).withCommand (encode (.pack 0))))
      (fun t => decide (t.phase = .idle)) = true := by decide

/-! ### Witnesses: invariants -/

theorem witness_InvariantKeptByStep : State.reset.Inv ∧ goesTo (step State.reset) (fun _ => true) = true :=
  ⟨⟨by decide, by decide, by decide, by decide, by decide, by decide, by decide⟩, by decide⟩
/-- A state with a beat on offer that has the invariant. -/
theorem witness_ErrorCodesProduced : ({ seedOne with phase := .resp, rsp := ⟨.err, 2⟩ } : State).Inv ∧
    goesTo (step { seedOne with phase := .resp, rsp := ⟨.err, 2⟩ }) (fun t => decide (t.sent = [⟨.err, 2⟩])) = true :=
  ⟨⟨by decide, by decide, by decide, by decide, by decide, by decide, by decide⟩, by decide⟩
theorem witness_NeverFaults : ({ blockWith .need 1 [true] with opr := 3, kreg := 64, cnt := 63 } : State).Inv :=
  ⟨by decide, by decide, by decide, by decide, by decide, by decide, by decide⟩
theorem witness_UnreachableRegistersFault : (blockWith .need 1 [true]).rst = false ∧ (blockWith .need 1 [true]).phase = .need ∧
    ({ blockWith .need 1 [true] with cnt := 64 } : State).cnt ≠ 0 ∧ (blockWith .need 1 [true]).q ≠ [] ∧
    64 ≤ ({ blockWith .need 1 [true] with cnt := 64 } : State).cnt.toNat ∧
    (blockWith .check 1 []).phase = .check ∧ (blockWith .check 1 []).opr = 0 ∧
    ({ blockWith .check 1 [] with opr := 2 } : State).rem = 0 := by decide

end Sys2Proof.Tests
end

section
/-!
The ring storage realises the FIFO (10_state.md R26, R35): one lemma per ring operation, then the obligation.
-/

namespace Sys2Proof.Machine

/-- `LEN` is 0 after reset, so no entry of `fmem` is read (R35). -/
theorem Ring.reset_realises (s : State) (fmem : BitVec 64) (hq : s.q = []) (hhead : s.head = 0) :
    (Ring.reset fmem).realises s :=
  ⟨hq.symm, hhead.symm⟩

/-- `(HEAD + (i - HEAD)) mod 64 = i`: the offset at which `State.fmem` looks entry `i` up leads the ring back to `i`. -/
theorem Ring.index_sub_head (r : Ring) (i : BitVec 6) : r.index (i - r.head).toNat = i := by
  unfold Ring.index
  rw [BitVec.ofNat_toNat, BitVec.setWidth_eq, BitVec.add_comm, BitVec.sub_add_cancel]

theorem Ring.entry_of_fmem (r : Ring) (s : State) (i : BitVec 6) (b : Bit) (h : r.realises s) (hb : s.fmem i = some b) :
    r.entry i = b := by
  obtain ⟨hq, hhead⟩ := h
  unfold State.fmem at hb
  rw [← hq, ← hhead, Ring.getElem?_toQueue, Ring.index_sub_head] at hb
  exact Option.some.inj (Option.ite_none_right_eq_some.mp hb).2

theorem Ring.index_zero (r : Ring) : r.index 0 = r.head := by simp [Ring.index]

theorem Ring.index_pop (r : Ring) (j : Nat) : r.pop.2.index j = r.index (j + 1) := by
  simp only [Ring.index, Ring.pop, BitVec.ofNat_add]
  ac_rfl

theorem Ring.len_pop (r : Ring) (h : 0 < r.len.toNat) : r.pop.2.len.toNat = r.len.toNat - 1 := by
  have hle : 1#7 ≤ r.len := BitVec.le_def.mpr h
  exact BitVec.toNat_sub_of_le hle

/-- A pop drops the head of the represented sequence; the storage is not written. -/
theorem Ring.toQueue_pop (r : Ring) (h : 0 < r.len.toNat) : r.toQueue = r.pop.1 :: r.pop.2.toQueue := by
  apply List.ext_getElem?
  intro j
  cases j with
  | zero => rw [Ring.getElem?_toQueue, if_pos h, Ring.index_zero]; rfl
  | succ j =>
    rw [List.getElem?_cons_succ, Ring.getElem?_toQueue, Ring.getElem?_toQueue, Ring.index_pop, Ring.len_pop r h]
    have hiff : j < r.len.toNat - 1 ↔ j + 1 < r.len.toNat := by omega
    simp only [hiff]
    rfl

theorem Ring.pop_realises (r : Ring) (s : State) (b : Bit) (rest : List Bit) (h : r.realises s) (hs : s.q = b :: rest) :
    r.pop.1 = b ∧ r.pop.2.realises s.fifoPop := by
  have hlen : 0 < r.len.toNat := by rw [Ring.realises_len r s h, hs]; exact Nat.succ_pos _
  obtain ⟨hq, hhead⟩ := h
  rw [Ring.toQueue_pop r hlen, hs, List.cons.injEq] at hq
  obtain ⟨hb, hrest⟩ := hq
  have htail : s.fifoPop.q = rest := by rw [State.fifoPop_q, hs, List.tail_cons]
  exact ⟨hb, hrest.trans htail.symm, congrArg (· + 1) hhead⟩

theorem State.fifoAppend_cons (s : State) (b : Bit) (l : List Bit) :
    s.fifoAppend (b :: l) = (s.fifoAppend [b]).fifoAppend l := by
  simp [State.fifoAppend]

theorem Ring.append_realises (r : Ring) (s : State) (l : List Bit) (h : r.realises s) (hl : s.q.length + l.length ≤ 64) :
    (r.append l).realises (s.fifoAppend l) := by
  induction l generalizing r s with
  | nil => simpa [Ring.append, State.fifoAppend] using h
  | cons b l ih =>
    rw [List.length_cons] at hl
    have hpush : (r.push b).realises (s.fifoAppend [b]) := Ring.push_realises r s b h (by omega)
    have hfits : (s.fifoAppend [b]).q.length + l.length ≤ 64 := by
      rw [State.fifoAppend_q, List.length_append, List.length_singleton]
      omega
    rw [State.fifoAppend_cons]
    exact ih (r.push b) (s.fifoAppend [b]) hpush hfits

/-- Settles O16: each operation of the ring commutes with its counterpart on the sequence. -/
theorem ringRealisesFifo : Obligations.RingRealisesFifo := by
  refine ⟨Ring.reset_realises, fun r s h _ => ⟨?_, ?_, ?_, ?_⟩⟩
  · exact Ring.realises_len r s h
  · exact fun i b hb => Ring.entry_of_fmem r s i b h hb
  · exact fun b rest hs => Ring.pop_realises r s b rest h hs
  · exact fun l hl => Ring.append_realises r s l h hl

end Sys2Proof.Machine
end

section
/-!
The order of the bit stream along a run (20_memory.md R54). What holds between two states of a run, composed over its steps; one lemma
says it of a step of the block, one that a host that does not reset leaves the block alone, and the run follows by induction.
-/

namespace Sys2Proof.Machine

theorem stream_one (c : Config) (x : Word) : stream c 1 x = group c (xsWord c x) := by simp [stream]

theorem xsIter_one (c : Config) (x : Word) : xsIter c 1 x = xsState c x := by simp [xsIter]

/-! ### Bits popped and words pulled between two states -/

/-- Between `s` and `t`, the bits `popped` left the front of `Q` and the groups of `pulled` raw words went to its back (R54). -/
def StreamBetween (popped : List Bit) (pulled : Nat) (s t : State) : Prop :=
  popped ++ t.q = s.q ++ stream hw pulled s.state ∧ t.state = xsIter hw pulled s.state

theorem StreamBetween.of_unchanged {s t : State} (hstate : t.state = s.state) (hq : t.q = s.q) : StreamBetween [] 0 s t :=
  ⟨by simp [stream, hq], hstate⟩

theorem StreamBetween.pop {s t : State} {b : Bit} (hstate : t.state = s.state) (hq : s.q = b :: t.q) :
    StreamBetween [b] 0 s t :=
  ⟨by simp [stream, hq], hstate⟩

theorem StreamBetween.pull (s : State) : StreamBetween [] 1 s (s.pull hw) :=
  ⟨by rw [State.pull_q, stream_one, List.nil_append], by rw [State.pull_state, xsIter_one]⟩

theorem StreamBetween.trans {p₁ p₂ : List Bit} {m₁ m₂ : Nat} {s u t : State} (h₁ : StreamBetween p₁ m₁ s u)
    (h₂ : StreamBetween p₂ m₂ u t) : StreamBetween (p₁ ++ p₂) (m₁ + m₂) s t := by
  obtain ⟨hq₁, hstate₁⟩ := h₁
  obtain ⟨hq₂, hstate₂⟩ := h₂
  constructor
  · calc (p₁ ++ p₂) ++ t.q = (p₁ ++ u.q) ++ stream hw m₂ u.state := by rw [List.append_assoc, hq₂, List.append_assoc]
      _ = s.q ++ stream hw (m₁ + m₂) s.state := by rw [hq₁, hstate₁, stream_add, List.append_assoc]
  · rw [hstate₂, hstate₁, xsIter_add]

/-! ### What the next step pops and pulls -/

theorem State.poppedBy_of_ne_need {s : State} (hp : s.phase ≠ .need) : s.poppedBy = [] := by
  simp [State.poppedBy, hp]

theorem State.poppedBy_of_complete {s : State} (hc : s.cnt = s.kreg) : s.poppedBy = [] := by
  simp [State.poppedBy, hc]

theorem State.poppedBy_of_empty {s : State} (hq : s.q = []) : s.poppedBy = [] := by
  simp [State.poppedBy, hq]

theorem State.poppedBy_of_draw {s : State} {b : Bit} {rest : List Bit} (hr : s.rst = false) (hp : s.phase = .need)
    (hc : s.cnt ≠ s.kreg) (hq : s.q = b :: rest) : s.poppedBy = [b] := by
  simp [State.poppedBy, hr, hp, hc, hq]

theorem State.pulledBy_of_ne_fill {s : State} (hp : s.phase ≠ .fill) : s.pulledBy = 0 := by
  simp [State.pulledBy, hp]

theorem State.pulledBy_of_high {s : State} (hl : lowFlag hw s.q = false) : s.pulledBy = 0 := by
  simp [State.pulledBy, hl]

theorem State.pulledBy_of_low {s : State} (hr : s.rst = false) (hp : s.phase = .fill) (hl : lowFlag hw s.q = true) :
    s.pulledBy = 1 := by
  simp [State.pulledBy, hr, hp, hl]

/-! ### A step of the block -/

/-- Out of reset, a step of the block is the step of its phase (R147). -/
theorem blockStep_cases {s t : State} (hr : s.rst = false) (h : blockStep s = .next t) :
    (s.phase = .idle ∧ acceptStep s = .next t) ∨ (s.phase = .need ∧ needStep s = .next t) ∨
    (s.phase = .fill ∧ fillStep hw s = .next t) ∨ (s.phase = .check ∧ checkStep s = .next t) ∨
    (s.phase = .resp ∧ respStep s = .next t) := by
  cases hp : s.phase <;> simpa [blockStep, hr, hp] using h

theorem acceptStep_frame {s t : State} (h : acceptStep s = .next t) :
    t.state = s.state ∧ t.q = s.q ∧ t.rst = s.rst ∧ t.script = s.script := by
  unfold acceptStep at h
  split at h
  · cases h; exact ⟨rfl, rfl, rfl, rfl⟩
  · obtain ⟨hstate, hq, -, hrst, -, -, -, -, hscript, -⟩ := exec_frame h
    exact ⟨hstate, hq, hrst, hscript⟩

theorem checkStep_frame {s t : State} (h : checkStep s = .next t) :
    t.state = s.state ∧ t.q = s.q ∧ t.rst = s.rst ∧ t.script = s.script := by
  rcases checkStep_cases h with ⟨-, rfl⟩ | ⟨-, -, rfl⟩ | ⟨-, -, rfl⟩ | ⟨-, -, rfl⟩ <;> exact ⟨rfl, rfl, rfl, rfl⟩

theorem respStep_frame {s t : State} (h : respStep s = .next t) :
    t.state = s.state ∧ t.q = s.q ∧ t.rst = s.rst ∧ t.script = s.script := by
  rcases respStep_cases h with ⟨-, rfl⟩ | ⟨-, -, rfl⟩ | ⟨-, -, rfl⟩ <;> exact ⟨rfl, rfl, rfl, rfl⟩

/-- The block drives neither `rst` nor the host's script. -/
theorem blockStep_ports {s t : State} (hr : s.rst = false) (h : blockStep s = .next t) :
    t.rst = s.rst ∧ t.script = s.script := by
  rcases blockStep_cases hr h with ⟨-, h⟩ | ⟨-, h⟩ | ⟨-, h⟩ | ⟨-, h⟩ | ⟨-, h⟩
  · obtain ⟨-, -, hports⟩ := acceptStep_frame h
    exact hports
  · rcases needStep_cases h with ⟨-, rfl⟩ | ⟨-, -, rfl⟩ | ⟨-, -, b, rest, -, rfl⟩ <;> exact ⟨rfl, rfl⟩
  · rcases fillStep_cases h with ⟨-, rfl⟩ | ⟨-, rfl⟩ <;> exact ⟨rfl, rfl⟩
  · obtain ⟨-, -, hports⟩ := checkStep_frame h
    exact hports
  · obtain ⟨-, -, hports⟩ := respStep_frame h
    exact hports

theorem needStep_streamBetween {s t : State} (hr : s.rst = false) (hp : s.phase = .need) (h : needStep s = .next t) :
    StreamBetween s.poppedBy s.pulledBy s t := by
  rw [State.pulledBy_of_ne_fill (by simp [hp])]
  rcases needStep_cases h with ⟨hc, rfl⟩ | ⟨-, hq, rfl⟩ | ⟨hc, -, b, rest, hq, rfl⟩
  · rw [State.poppedBy_of_complete hc]
    exact .of_unchanged rfl rfl
  · rw [State.poppedBy_of_empty hq]
    exact .of_unchanged rfl rfl
  · rw [State.poppedBy_of_draw hr hp hc hq]
    exact .pop rfl (by rw [State.drawBit_q, hq, List.tail_cons])

theorem fillStep_streamBetween {s t : State} (hr : s.rst = false) (hp : s.phase = .fill) (h : fillStep hw s = .next t) :
    StreamBetween s.poppedBy s.pulledBy s t := by
  rw [State.poppedBy_of_ne_need (by simp [hp])]
  rcases fillStep_cases h with ⟨hl, rfl⟩ | ⟨hl, rfl⟩
  · rw [State.pulledBy_of_low hr hp hl]
    exact .pull s
  · rw [State.pulledBy_of_high hl]
    exact .of_unchanged rfl rfl

/-- `NEED` alone pops and `FILL` alone pulls (R24, R50); the other phases leave `STATE` and `Q` alone. -/
theorem blockStep_streamBetween {s t : State} (hr : s.rst = false) (h : blockStep s = .next t) :
    StreamBetween s.poppedBy s.pulledBy s t := by
  have quiet : s.phase ≠ .need → s.phase ≠ .fill → t.state = s.state → t.q = s.q →
      StreamBetween s.poppedBy s.pulledBy s t := by
    intro hn hf hstate hq
    rw [State.poppedBy_of_ne_need hn, State.pulledBy_of_ne_fill hf]
    exact .of_unchanged hstate hq
  rcases blockStep_cases hr h with ⟨hp, h⟩ | ⟨hp, h⟩ | ⟨hp, h⟩ | ⟨hp, h⟩ | ⟨hp, h⟩
  · obtain ⟨hstate, hq, -⟩ := acceptStep_frame h
    exact quiet (by simp [hp]) (by simp [hp]) hstate hq
  · exact needStep_streamBetween hr hp h
  · exact fillStep_streamBetween hr hp h
  · obtain ⟨hstate, hq, -⟩ := checkStep_frame h
    exact quiet (by simp [hp]) (by simp [hp]) hstate hq
  · obtain ⟨hstate, hq, -⟩ := respStep_frame h
    exact quiet (by simp [hp]) (by simp [hp]) hstate hq

/-! ### A host that does not reset -/

theorem State.sameBlock_refl (s : State) : s.sameBlock s :=
  ⟨rfl, rfl, rfl, rfl, rfl, rfl, rfl, rfl, rfl, rfl, rfl⟩

/-- The turn of a host that does not reset leaves the block alone, and that host still does not reset (R192). -/
theorem hostTurn_of_noReset (c : Config) {s : State} (h : s.noReset) : (hostTurn c s).sameBlock s ∧ (hostTurn c s).noReset := by
  cases hs : s.script with
  | nil => rw [hostTurn_nil c hs]; exact ⟨s.sameBlock_refl, h⟩
  | cons act rest =>
    have hturn : hostTurn c s = hostAct c s act rest := by simp [hostTurn, hs]
    have ⟨hr, hscript⟩ := h
    rw [hs, List.all_cons, Bool.and_eq_true] at hscript
    obtain ⟨hact, hrest⟩ := hscript
    rw [hturn]
    cases act with
    | pause => exact ⟨s.sameBlock_refl, hr, hrest⟩
    | offer w =>
      cases hcmd : s.cmd with
      | none =>
        have hoffered : hostAct c s (.offer w) rest = { s with cmd := some w, script := rest } := by simp [hostAct, hcmd]
        rw [hoffered]
        exact ⟨s.sameBlock_refl, hr, hrest⟩
      | some w' =>
        have hwaits : hostAct c s (.offer w) rest = s := by simp [hostAct, hcmd]
        rw [hwaits]
        exact ⟨s.sameBlock_refl, h⟩
    | setReady ready => exact ⟨s.sameBlock_refl, hr, hrest⟩
    | assertReset sel seedIn => simp [HostAct.isReset] at hact
    | releaseReset => exact ⟨s.sameBlock_refl, rfl, hrest⟩

/-! ### A step, and a run -/

theorem step_streamBetween {s t : State} (hs : s.noReset) (h : step s = .next t) :
    StreamBetween s.poppedBy s.pulledBy s t ∧ t.noReset := by
  obtain ⟨u, hu, rfl⟩ := step_next h
  obtain ⟨hr, hscript⟩ := hs
  obtain ⟨hur, huscript⟩ := blockStep_ports hr hu
  obtain ⟨⟨hstate, hq, -⟩, hreset⟩ := hostTurn_of_noReset hw (s := u) ⟨hur.trans hr, by rw [huscript, hscript]⟩
  have hturn : StreamBetween [] 0 u (hostTurn hw u) := .of_unchanged hstate hq
  exact ⟨by simpa using (blockStep_streamBetween hr hu).trans hturn, hreset⟩

theorem runSteps_succ_next {k : Nat} {s t : State} (h : runSteps (k + 1) s = .next t) :
    ∃ u, step s = .next u ∧ runSteps k u = .next t := by
  cases hs : step s with
  | next u => exact ⟨u, rfl, by rwa [runSteps_succ hs] at h⟩
  | fault r => simp [runSteps, hs] at h
  | refused r => simp [runSteps, hs] at h

theorem poppedIn_succ {s u : State} (h : step s = .next u) (k : Nat) : poppedIn (k + 1) s = s.poppedBy ++ poppedIn k u := by
  simp [poppedIn, h]

theorem pulledIn_succ {s u : State} (h : step s = .next u) (k : Nat) : pulledIn (k + 1) s = s.pulledBy + pulledIn k u := by
  simp [pulledIn, h]

theorem runSteps_streamBetween {k : Nat} {s t : State} (hs : s.noReset) (h : runSteps k s = .next t) :
    StreamBetween (poppedIn k s) (pulledIn k s) s t := by
  induction k generalizing s with
  | zero => cases h; exact .of_unchanged rfl rfl
  | succ k ih =>
    obtain ⟨u, hstep, hrun⟩ := runSteps_succ_next h
    obtain ⟨hfirst, hu⟩ := step_streamBetween hs hstep
    rw [poppedIn_succ hstep, pulledIn_succ hstep]
    exact hfirst.trans (ih hu hrun)

/-- Settles O45, by induction on the length of the run: each step keeps the order of the stream, and so does its composition. -/
theorem streamOrder : Obligations.StreamOrder :=
  fun _ _ _ hs h => runSteps_streamBetween hs h

end Sys2Proof.Machine
end

section
/-!
The wire forms are their fields (30_encoding.md R61, R64, R65): a word is its upper field times 2^64 plus its lower one, for the command
word and for the reply beat, and the status code and the beat are read back without loss.
-/

namespace Sys2Proof

theorem append_fields_toNat (w : CmdWord) : w.toNat = (opField w).toNat * 2 ^ 64 + (argField w).toNat := by
  rw [← fieldsWord_toNat, append_fields]

/-- Settles O3: the word is the concatenation of its fields, and `encode` concatenates the opcode and the operand. -/
theorem commandWordFields : Obligations.CommandWordFields :=
  ⟨append_fields_toNat, fun i => fieldsWord_toNat (opcodeOf i) (operandOf i)⟩

end Sys2Proof

namespace Sys2Proof.Machine

@[simp] theorem statusOfBits_statusBits (s : Status) : statusOfBits (statusBits s) = s := by
  cases s <;> rfl

@[simp] theorem statusBits_statusOfBits (b : BitVec 2) : statusBits (statusOfBits b) = b := by
  revert b; decide

theorem beatWord_toNat (b : Beat) : (beatWord b).toNat = (statusBits b.status).toNat * 2 ^ 64 + b.data.toNat := by
  rw [beatWord, BitVec.toNat_append, ← Nat.shiftLeft_add_eq_or_of_lt b.data.isLt, Nat.shiftLeft_eq]

theorem beatOfWord_beatWord (b : Beat) : beatOfWord (beatWord b) = b := by
  rw [beatOfWord, beatWord, BitVec.extractLsb'_append_eq_left, BitVec.extractLsb'_append_eq_right, statusOfBits_statusBits]

theorem beatWord_beatOfWord (w : RspWord) : beatWord (beatOfWord w) = w :=
  calc beatWord (beatOfWord w)
      = w.extractLsb' 64 2 ++ w.extractLsb' 0 64 := congrArg (· ++ _) (statusBits_statusOfBits _)
    _ = w.extractLsb' 0 66 := BitVec.extractLsb'_append_extractLsb'_eq_extractLsb' rfl
    _ = w := BitVec.extractLsb'_eq_self

/-- Settles O5: the codes are those of R65, and the beat on the wires is taken apart and put together field by field. -/
theorem replyBeatFields : Obligations.ReplyBeatFields :=
  ⟨fun b => ⟨beatWord_toNat b, beatOfWord_beatWord b⟩, beatWord_beatOfWord, rfl, rfl, rfl, rfl⟩

end Sys2Proof.Machine
end

section
/-!
The replies of the commands (30_encoding.md R66, R75). One lemma says what the beats of a command that ends can be, command by command;
the shape of every reply and the width of its data follow from it.
-/

namespace Sys2Proof.Machine

/-! ### The shape of a reply -/

/-- The beats of one reply: all but the last are `OK_MORE`, and there is a last one that is not (R66). -/
def IsReply (beats : List Beat) : Prop :=
  ∃ (front : List Beat) (last : Beat), beats = front ++ [last] ∧ (∀ b ∈ front, b.status = .okMore) ∧ last.status ≠ .okMore

theorem IsReply.single {b : Beat} (h : b.status ≠ .okMore) : IsReply [b] := ⟨[], b, rfl, by simp, h⟩

theorem IsReply.cons {b : Beat} {beats : List Beat} (hb : b.status = .okMore) (h : IsReply beats) : IsReply (b :: beats) := by
  obtain ⟨front, last, rfl, hfront, hlast⟩ := h
  exact ⟨b :: front, last, rfl, List.forall_mem_cons.mpr ⟨hb, hfront⟩, hlast⟩

/-! ### The beats of `BITS` -/

theorem bitWord_toNat_le (b : Bit) : (bitWord b).toNat ≤ 1 := by cases b <;> decide

theorem bitsBeats_length (bs : List Bit) : (bitsBeats bs).length = bs.length := by
  induction bs using bitsBeats.induct with
  | case1 => rfl
  | case2 b => rfl
  | case3 b b' rest ih => simp only [bitsBeats, List.length_cons] at ih ⊢; rw [ih]

theorem bitsBeats_isReply {bs : List Bit} (h : bs ≠ []) : IsReply (bitsBeats bs) := by
  induction bs using bitsBeats.induct with
  | case1 => exact absurd rfl h
  | case2 b => exact .single (by simp)
  | case3 b b' rest ih => exact .cons rfl (ih (List.cons_ne_nil b' rest))

theorem bitsBeats_are_bits (bs : List Bit) :
    ∀ b ∈ bitsBeats bs, b.data.toNat ≤ 1 ∧ (b.status = .okMore ∨ b.status = .okLast) := by
  induction bs using bitsBeats.induct with
  | case1 => simp [bitsBeats]
  | case2 b => simp [bitsBeats, bitWord_toNat_le]
  | case3 b b' rest ih => exact List.forall_mem_cons.mpr ⟨⟨bitWord_toNat_le b, .inl rfl⟩, ih⟩

/-! ### The width of a packed and of a sampled value -/

theorem packBits_lt {c : Config} {fuel k : Nat} {g g' : Gen} {v : Word} (hk : k ≤ 64) (h : packBits c fuel k g = some (v, g')) :
    v.toNat < 2 ^ k := by
  rw [packBits_eq_takeBits c fuel k g hk, Option.map_eq_some_iff] at h
  obtain ⟨⟨bs, g₁⟩, hbs, hv⟩ := h
  have hlen : bs.length = k := (takeBits_spec c fuel k g g₁ bs hbs).1
  cases hv
  calc (BitVec.ofNat 64 (bitsValue bs)).toNat
      ≤ bitsValue bs := by rw [BitVec.toNat_ofNat]; exact Nat.mod_le _ _
    _ < 2 ^ k := hlen ▸ bitsValue_lt bs

theorem sampleLoop_lt {c : Config} {fuel width attempts : Nat} {max v : Word} {g g' : Gen}
    (h : sampleLoop c fuel width max attempts g = some (v, g')) : v.toNat < max.toNat := by
  induction attempts generalizing g with
  | zero => cases h
  | succ attempts ih =>
    simp only [sampleLoop] at h
    split at h
    · cases h
    · split at h
      · next haccept => cases h; exact of_decide_eq_true haccept
      · exact ih h

theorem sample_lt {c : Config} {fuel : Nat} {max v : Word} {g g' : Gen} (hmax : 1 ≤ max.toNat)
    (h : sample c fuel max g = some (v, g')) : v.toNat < max.toNat := by
  unfold sample at h
  split at h
  · cases h; exact hmax
  · exact sampleLoop_lt h

/-! ### What the beats of each command can be -/

theorem map_lastBeat_eq_some {r : Option (Word × Gen)} {beats : List Beat} {g' : Gen} (h : r.map lastBeat = some (beats, g')) :
    ∃ v : Word, r = some (v, g') ∧ beats = [⟨.okLast, v⟩] := by
  obtain ⟨⟨v, g₁⟩, hr, hbeats⟩ := Option.map_eq_some_iff.mp h
  cases hbeats
  exact ⟨v, hr, rfl⟩

section

variable {c : Config} {fuel : Nat} {g g' : Gen} {beats : List Beat}

theorem refBit_reply (h : refBit c fuel g = some (beats, g')) : ∃ b : Bit, beats = [⟨.okLast, bitWord b⟩] := by
  obtain ⟨⟨b, g₁⟩, -, hbeats⟩ := Option.map_eq_some_iff.mp h
  cases hbeats
  exact ⟨b, rfl⟩

theorem refBits_reply {n : Word} (h : refBits c fuel n g = some (beats, g')) :
    (n = 0 ∧ beats = [⟨.doneEmpty, 0⟩]) ∨ (n ≠ 0 ∧ ∃ bs : List Bit, bs.length = n.toNat ∧ beats = bitsBeats bs) := by
  unfold refBits at h
  split at h
  · next hn => cases h; exact .inl ⟨of_decide_eq_true hn, rfl⟩
  · next hn =>
    rw [bitsLoop_eq_takeBits, Option.map_eq_some_iff] at h
    obtain ⟨⟨bs, g₁⟩, hbs, hbeats⟩ := h
    cases hbeats
    exact .inr ⟨fun h0 => hn (decide_eq_true h0), bs, (takeBits_spec c fuel n.toNat g g₁ bs hbs).1, rfl⟩

theorem refPack_reply {k : Word} (h : refPack c fuel k g = some (beats, g')) :
    (c.packMax < k.toNat ∧ beats = [⟨.err, errArg⟩]) ∨
    (k.toNat ≤ c.packMax ∧ ∃ v : Word, packBits c fuel k.toNat g = some (v, g') ∧ beats = [⟨.okLast, v⟩]) := by
  unfold refPack at h
  split at h
  · next hk => cases h; exact .inl ⟨of_decide_eq_true hk, rfl⟩
  · next hk => exact .inr ⟨Nat.le_of_not_lt fun hlt => hk (decide_eq_true hlt), map_lastBeat_eq_some h⟩

theorem refBounded_reply {max : Word} (h : refBounded c fuel max g = some (beats, g')) :
    ∃ v : Word, sample c fuel max g = some (v, g') ∧ beats = [⟨.okLast, v⟩] :=
  map_lastBeat_eq_some h

theorem refReserved_reply (h : refReserved g = some (beats, g')) : beats = [⟨.err, errOp⟩] := by
  cases h; rfl

/-! ### The shape of every reply -/

theorem refBits_isReply {n : Word} (h : refBits c fuel n g = some (beats, g')) : IsReply beats := by
  obtain ⟨-, rfl⟩ | ⟨hn, bs, hlen, rfl⟩ := refBits_reply h
  · exact .single (by simp)
  · refine bitsBeats_isReply fun hnil => hn (BitVec.eq_of_toNat_eq ?_)
    simp [← hlen, hnil]

theorem refPack_isReply {k : Word} (h : refPack c fuel k g = some (beats, g')) : IsReply beats := by
  obtain ⟨-, rfl⟩ | ⟨-, v, -, rfl⟩ := refPack_reply h
  · exact .single (by simp)
  · exact .single (by simp)

theorem refReserved_isReply (h : refReserved g = some (beats, g')) : IsReply beats := by
  rw [refReserved_reply h]; exact .single (by simp)

theorem runCommand_isReply {i : Instr} (h : runCommand c fuel i g = some (beats, g')) : IsReply beats := by
  cases i with
  | bit a =>
    obtain ⟨b, rfl⟩ := refBit_reply h
    exact .single (by simp)
  | bits n => exact refBits_isReply h
  | pack k => exact refPack_isReply h
  | bounded max =>
    obtain ⟨v, -, rfl⟩ := refBounded_reply h
    exact .single (by simp)
  | reserved0 a => exact refReserved_isReply h
  | reserved5 a => exact refReserved_isReply h
  | reserved6 a => exact refReserved_isReply h
  | reserved7 a => exact refReserved_isReply h

/-! ### Count and width, command by command -/

theorem refBits_width {n : Word} (hn : n ≠ 0) (h : refBits c fuel n g = some (beats, g')) :
    beats.length = n.toNat ∧ ∀ b ∈ beats, b.data.toNat ≤ 1 ∧ (b.status = .okMore ∨ b.status = .okLast) := by
  obtain ⟨h0, -⟩ | ⟨-, bs, hlen, rfl⟩ := refBits_reply h
  · exact absurd h0 hn
  · exact ⟨(bitsBeats_length bs).trans hlen, bitsBeats_are_bits bs⟩

theorem refPack_width {k : Word} (hk : k.toNat ≤ c.packMax) (hc : c.packMax ≤ 64) (h : refPack c fuel k g = some (beats, g')) :
    ∃ v : Word, beats = [⟨.okLast, v⟩] ∧ v.toNat < 2 ^ k.toNat := by
  obtain ⟨hlarge, -⟩ | ⟨-, v, hv, hbeats⟩ := refPack_reply h
  · exact absurd hk hlarge.not_ge
  · exact ⟨v, hbeats, packBits_lt (hk.trans hc) hv⟩

theorem refBounded_width {max : Word} (h : refBounded c fuel max g = some (beats, g')) :
    ∃ v : Word, beats = [⟨.okLast, v⟩] ∧ (1 ≤ max.toNat → v.toNat < max.toNat) := by
  obtain ⟨v, hv, hbeats⟩ := refBounded_reply h
  exact ⟨v, hbeats, fun hmax => sample_lt hmax hv⟩

theorem refBit_width (h : refBit c fuel g = some (beats, g')) : ∃ v : Word, beats = [⟨.okLast, v⟩] ∧ v.toNat ≤ 1 := by
  obtain ⟨b, hbeats⟩ := refBit_reply h
  exact ⟨bitWord b, hbeats, bitWord_toNat_le b⟩

end

/-- Settles O23: the shape by the command, and for each command that delivers values the width of its data. -/
theorem replyShapes : Obligations.ReplyShapes := by
  intro fuel i g g' beats h
  refine ⟨runCommand_isReply h, ?bits, ?pack, ?bounded, ?bit⟩
  case bits => rintro n rfl hn; exact refBits_width hn h
  case pack => rintro k rfl hk; exact refPack_width hk le_rfl h
  case bounded => rintro max rfl; exact refBounded_width h
  case bit => rintro a rfl; exact refBit_width h

end Sys2Proof.Machine
end

section
/-!
The scrambler in integers and bit by bit (40_scrambler.md R81 to R83), and its two maps as bijections (R86, R87). Each shift and each
shift-XOR stage is read once as an integer and once as bits; the maps are bijective under the constraints U19 puts on a configuration.
-/

namespace Sys2Proof.Machine

/-! ### The stages in integers -/

theorem shl_toNat (x : Word) (k : Nat) : (shl x k).toNat = x.toNat * 2 ^ k % 2 ^ 64 := by
  rw [shl, BitVec.toNat_shiftLeft, Nat.shiftLeft_eq]

theorem shr_toNat (x : Word) (k : Nat) : (shr x k).toNat = x.toNat / 2 ^ k := by
  rw [shr, BitVec.toNat_ushiftRight, Nat.shiftRight_eq_div_pow]

theorem shiftXor_left_toNat (k : Nat) (x : Word) :
    (shiftXor .left k x).toNat = x.toNat ^^^ (x.toNat * 2 ^ k % 2 ^ 64) := by
  rw [shiftXor, BitVec.toNat_xor, shiftBy, shl_toNat]

theorem shiftXor_right_toNat (k : Nat) (x : Word) : (shiftXor .right k x).toNat = x.toNat ^^^ (x.toNat / 2 ^ k) := by
  rw [shiftXor, BitVec.toNat_xor, shiftBy, shr_toNat]

theorem stageA_hw_toNat (x : Word) : (stageA hw x).toNat = x.toNat ^^^ (x.toNat * 2 ^ 12 % 2 ^ 64) :=
  shiftXor_left_toNat 12 x

theorem stageB_hw_toNat (x : Word) : (stageB hw x).toNat = x.toNat ^^^ (x.toNat / 2 ^ 25) :=
  shiftXor_right_toNat 25 x

theorem stageC_hw_toNat (x : Word) : (stageC hw x).toNat = x.toNat ^^^ (x.toNat * 2 ^ 27 % 2 ^ 64) :=
  shiftXor_left_toNat 27 x

theorem xsOutput_toNat (c : Config) (x3 : Word) : (xsOutput c x3).toNat = x3.toNat * c.mult.toNat % 2 ^ 64 :=
  BitVec.toNat_mul x3 c.mult

/-- Settles O7: the stored state is the three stages in integers, and the word is its product with the multiplier. -/
theorem scramblerNextWord : Obligations.ScramblerNextWord := by
  intro x x0 x1 x2 x3
  have hstate : (xsState hw x).toNat = x3 := by rw [xsState, stageC_hw_toNat, stageB_hw_toNat, stageA_hw_toNat]
  refine ⟨hstate, ?_⟩
  rw [xsWord, xsOutput_toNat, hstate]
  rfl

/-! ### The stages bit by bit -/

/-- The right shift fills with zeros: bit `i + k` of a word does not exist for `i > 63 - k` (R82). -/
theorem wordBit_shr_eq_ite (x : Word) {k : Nat} (i : Nat) (hk : k < 64) :
    wordBit (shr x k) i = (if i ≤ 63 - k then wordBit x (i + k) else false) := by
  rw [wordBit_shr, Nat.add_comm]
  split
  · rfl
  · exact wordBit_of_ge x (i + k) (by omega)

theorem wordBit_shiftXor_left (k : Nat) (x : Word) {i : Nat} (hi : i < 64) :
    wordBit (shiftXor .left k x) i = (if i < k then wordBit x i else wordBit x i ^^ wordBit x (i - k)) := by
  rw [shiftXor, wordBit_xor, shiftBy, wordBit_shl x k i hi]
  by_cases h : i < k
  · rw [if_pos h, if_neg (Nat.not_le.mpr h), Bool.xor_false]
  · rw [if_neg h, if_pos (Nat.not_lt.mp h)]

theorem wordBit_shiftXor_right {k : Nat} (hk : k < 64) (x : Word) (i : Nat) :
    wordBit (shiftXor .right k x) i = (if i ≤ 63 - k then wordBit x i ^^ wordBit x (i + k) else wordBit x i) := by
  rw [shiftXor, wordBit_xor, shiftBy, wordBit_shr_eq_ite x i hk]
  by_cases h : i ≤ 63 - k
  · rw [if_pos h, if_pos h]
  · rw [if_neg h, if_neg h, Bool.xor_false]

/-- Settles O8: the bits of the two shifts, and of a left and a right stage at the shift amounts of this hardware. -/
theorem scramblerBitByBit : Obligations.ScramblerBitByBit := by
  refine ⟨fun x k i _ hk hi => ⟨?_, ?_⟩, fun x i hi => ⟨?_, ?_, ?_⟩⟩
  · exact wordBit_shl x k i hi
  · exact wordBit_shr_eq_ite x i hk
  · exact wordBit_shiftXor_left 12 x hi
  · exact wordBit_shiftXor_right (k := 25) (by decide) x i
  · exact wordBit_shiftXor_left 27 x hi

/-! ### The two maps -/

theorem xsState_zero (c : Config) : xsState c 0 = 0 := by
  simp only [xsState, stageA, stageB, stageC, shiftXor_zero]

theorem xsOutput_zero (c : Config) : xsOutput c 0 = 0 := BitVec.zero_mul

theorem scramblerParams_of_wellFormed {c : Config} (hc : c.wellFormed = true) :
    0 < c.shA ∧ 0 < c.shB ∧ 0 < c.shC ∧ c.mult.getLsbD 0 = true := by
  simp only [Config.wellFormed, shiftInRange, Bool.and_eq_true, decide_eq_true_eq] at hc
  obtain ⟨⟨⟨⟨⟨⟨⟨⟨⟨hA, -⟩, ⟨hB, -⟩⟩, ⟨hC, -⟩⟩, hodd⟩, -⟩, -⟩, -⟩, -⟩, -⟩ := hc
  exact ⟨hA, hB, hC, hodd⟩

section

variable {c : Config} (hc : c.wellFormed = true)
include hc

theorem xsState_injective : Function.Injective (xsState c) := by
  obtain ⟨hA, hB, hC, -⟩ := scramblerParams_of_wellFormed hc
  exact (shiftXor_injective c.dirC c.shC hC).comp
    ((shiftXor_injective c.dirB c.shB hB).comp (shiftXor_injective c.dirA c.shA hA))

theorem xsOutput_injective : Function.Injective (xsOutput c) := by
  obtain ⟨-, -, -, hodd⟩ := scramblerParams_of_wellFormed hc
  exact mul64_injective c.mult hodd

theorem xsWord_injective : Function.Injective (xsWord c) :=
  (xsOutput_injective hc).comp (xsState_injective hc)

theorem xsState_eq_zero_iff {x : Word} : xsState c x = 0 ↔ x = 0 :=
  (xsState_injective hc).eq_iff' (xsState_zero c)

theorem xsOutput_eq_zero_iff {x3 : Word} : xsOutput c x3 = 0 ↔ x3 = 0 :=
  (xsOutput_injective hc).eq_iff' (xsOutput_zero c)

theorem xsWord_eq_zero_iff {x : Word} : xsWord c x = 0 ↔ x = 0 :=
  (xsOutput_eq_zero_iff hc).trans (xsState_eq_zero_iff hc)

end

theorem hw_wellFormed : hw.wellFormed = true := by decide

/-- Settles O9: both maps are injective and keep 0, so on the finite set of words they are bijections that keep non-zero. -/
theorem scramblerBijectiveNonzero : Obligations.ScramblerBijectiveNonzero := by
  refine ⟨?_, ?_, fun x hx => ⟨?_, ?_⟩, fun x3 => ?_, ?_⟩
  · exact wordMap_bijective (xsState_injective hw_wellFormed)
  · exact wordMap_bijective (xsOutput_injective hw_wellFormed)
  · exact (xsState_eq_zero_iff hw_wellFormed).not.mpr hx
  · exact (xsWord_eq_zero_iff hw_wellFormed).not.mpr hx
  · exact xsOutput_eq_zero_iff hw_wellFormed
  · exact fun x y h => xsWord_injective hw_wellFormed h

end Sys2Proof.Machine
end

section
/-!
The group of a raw word and the serial whitening machine (41_whitener.md R96, R97, R105). The group is read twice: pair by pair as the
survivors, and as `VN` of the 64 bits, which is also what the serial machine outputs.
-/

namespace Sys2Proof.Machine

/-! ### The group as survivors and as `VN` -/

theorem group_eq_survivors (c : Config) (w : Word) : group c w =
    ((List.range c.pairs).filter (fun p => wordBit w (2 * p) != wordBit w (2 * p + 1))).map (fun p => wordBit w (2 * p)) :=
  flatMap_pairOf_eq w (List.range c.pairs)

theorem group_length_eq_countP (c : Config) (w : Word) : (group c w).length =
    (List.range c.pairs).countP (fun p => wordBit w (2 * p) != wordBit w (2 * p + 1)) := by
  rw [group_eq_survivors, List.length_map, List.countP_eq_length_filter]

theorem vn_wordBits (w : Word) : vn (wordBits w) = group hw w := vn_range 32 (wordBit w)

/-- Settles O12: the group is a `flatMap` over the pair numbers, so it is a filter of them; `vn_wordBits` gives the last part. -/
theorem groupIsSurvivors : Obligations.GroupIsSurvivors := by
  refine ⟨⟨rfl, rfl, rfl, rfl⟩, fun w => ⟨?_, ?_, ?_, ?_⟩⟩
  · exact group_eq_survivors hw w
  · exact group_length_eq_countP hw w
  · exact group_length_le hw w
  · exact (vn_wordBits w).symm

/-! ### The serial machine -/

theorem wordBits_length (w : Word) : (wordBits w).length = 64 := by simp [wordBits]

/-- Settles O13: on a sequence of even length the serial machine appends `VN` of it and waits again. -/
theorem serialWhiteningAgrees : Obligations.SerialWhiteningAgrees := by
  intro w first
  have heven : (wordBits w).length % 2 = 0 := by rw [wordBits_length]
  obtain ⟨hout, hhalf⟩ := serialRun_even (wordBits w) heven first []
  exact ⟨hout.trans (vn_wordBits w), hhalf⟩

end Sys2Proof.Machine
end

section
/-!
One bit from the whitened stream (41_whitener.md R98, R100): what the pop and the take do for an empty and for a non-empty `Q`.
-/

namespace Sys2Proof.Machine

theorem genPop_eq_some_iff {g g' : Gen} {b : Bit} : genPop g = some (b, g') ↔ g = ⟨g'.state, b :: g'.q⟩ := by
  obtain ⟨x, q⟩ := g
  cases q with
  | nil => simp [genPop]
  | cons b₀ rest =>
    constructor
    · intro h; cases h; rfl
    · intro h; cases h; rfl

theorem genPop_eq_none_iff {g : Gen} : genPop g = none ↔ g.q = [] := by
  obtain ⟨x, q⟩ := g
  cases q <;> simp [genPop]

section

variable {c : Config} {fuel : Nat}

theorem nextBit_cons (x : Word) (b : Bit) (rest : List Bit) : nextBit c fuel ⟨x, b :: rest⟩ = some (b, ⟨x, rest⟩) := rfl

theorem nextBit_nil (x : Word) : nextBit c fuel ⟨x, []⟩ = (refill c fuel ⟨x, []⟩).bind genPop := rfl

theorem refill_length_ge {g g' : Gen} (h : refill c fuel g = some g') : c.thresh ≤ g'.q.length := by
  obtain ⟨hhigh, -⟩ := refill_spec c fuel g g' h
  exact Nat.le_of_not_lt (of_decide_eq_false hhigh)

theorem nextBit_nil_eq_some {x : Word} {b : Bit} {g' : Gen} (h : nextBit c fuel ⟨x, []⟩ = some (b, g')) :
    refill c fuel ⟨x, []⟩ = some ⟨g'.state, b :: g'.q⟩ := by
  obtain ⟨g₁, hrefill, hpop⟩ := Option.bind_eq_some_iff.mp h
  rw [hrefill, genPop_eq_some_iff.mp hpop]

/-- A refill that ends left at least `THRESH` bits, so the pop after it is defined (R100). -/
theorem refill_eq_none_iff_nextBit_nil (hthresh : 0 < c.thresh) (x : Word) :
    refill c fuel ⟨x, []⟩ = none ↔ nextBit c fuel ⟨x, []⟩ = none := by
  rw [nextBit_nil]
  cases hrefill : refill c fuel ⟨x, []⟩ with
  | none => simp
  | some g₁ =>
    have hq : g₁.q ≠ [] := List.ne_nil_of_length_pos (hthresh.trans_le (refill_length_ge hrefill))
    simpa [genPop_eq_none_iff] using hq

end

/-- Settles O15: a non-empty `Q` is popped as it is; an empty one is refilled first, to `THRESH` = 32 bits or more. -/
theorem refillOnlyWhenEmpty : Obligations.RefillOnlyWhenEmpty := by
  refine ⟨fun fuel x b rest => nextBit_cons x b rest, fun fuel x b g' h => ?_, fun fuel x => ?_⟩
  · have hrefill := nextBit_nil_eq_some h
    exact ⟨hrefill, refill_length_ge hrefill⟩
  · exact refill_eq_none_iff_nextBit_nil (by decide) x

end Sys2Proof.Machine
end

section
/-!
The commands that consume nothing (41_whitener.md R108, 42_packer.md R117, R120, 43_sampler.md R126, 60_exceptions.md R162): one rule
for each branch of the command-level reference that answers without a draw.
-/

namespace Sys2Proof.Machine

section

variable {c : Config} {fuel : Nat} {g : Gen}

theorem refBits_zero : refBits c fuel 0 g = some ([⟨.doneEmpty, 0⟩], g) := rfl

theorem packBits_zero : packBits c fuel 0 g = some (0, g) := rfl

theorem refPack_too_large {k : Word} (hk : c.packMax < k.toNat) : refPack c fuel k g = some ([⟨.err, errArg⟩], g) :=
  if_pos (decide_eq_true hk)

theorem refPack_in_range {k : Word} (hk : k.toNat ≤ c.packMax) :
    refPack c fuel k g = (packBits c fuel k.toNat g).map lastBeat :=
  if_neg (by simpa [packTooLarge] using hk)

theorem refPack_zero : refPack c fuel 0 g = some ([⟨.okLast, 0⟩], g) :=
  calc refPack c fuel 0 g
      = (packBits c fuel 0 g).map lastBeat := refPack_in_range (Nat.zero_le _)
    _ = some ([⟨.okLast, 0⟩], g) := by rw [packBits_zero, Option.map_some, lastBeat]

theorem sample_degenerate {max : Word} (hmax : max.toNat ≤ 1) : sample c fuel max g = some (0, g) :=
  if_pos (decide_eq_true hmax)

theorem refBounded_degenerate {max : Word} (hmax : max.toNat ≤ 1) : refBounded c fuel max g = some ([⟨.okLast, 0⟩], g) := by
  rw [refBounded, sample_degenerate hmax, Option.map_some, lastBeat]

theorem refReserved_eq : refReserved g = some ([⟨.err, errOp⟩], g) := rfl

end

/-- Settles O22: each of these commands takes the branch of its reference that answers without a draw. -/
theorem zeroConsumptionCommands : Obligations.ZeroConsumptionCommands := by
  intro fuel g
  refine ⟨?pack, ?bits, ?bounded0, ?bounded1, ?refused, ?reserved⟩
  case pack => exact refPack_zero
  case bits => exact refBits_zero
  case bounded0 => exact refBounded_degenerate (by decide)
  case bounded1 => exact refBounded_degenerate (by decide)
  case refused => exact fun k hk => refPack_too_large hk
  case reserved => exact fun a => ⟨refReserved_eq, refReserved_eq, refReserved_eq, refReserved_eq⟩

end Sys2Proof.Machine
end

section
/-!
The packer at command level (42_packer.md R116, R121). A pack that ends is the value of bits taken one after the other from the stream;
`BIT`, `BITS` and a sequence of `PACK 1` take the same bits, so the three commands differ only in the beats that carry them.
-/

namespace Sys2Proof.Machine

section

variable {c : Config} {fuel : Nat} {g g' : Gen}

/-! ### A pack as bits taken -/

theorem toNat_ofNat_bitsValue {bs : List Bit} (h : bs.length ≤ 64) : (BitVec.ofNat 64 (bitsValue bs)).toNat = bitsValue bs := by
  have hlt : bitsValue bs < 2 ^ 64 := (bitsValue_lt bs).trans_le (Nat.pow_le_pow_right (by decide) h)
  rw [BitVec.toNat_ofNat, Nat.mod_eq_of_lt hlt]

theorem packBits_eq_some {k : Nat} {r : Word} (hk : k ≤ 64) (h : packBits c fuel k g = some (r, g')) :
    ∃ bs : List Bit, takeBits c fuel k g = some (bs, g') ∧ r.toNat = bitsValue bs := by
  rw [packBits_eq_takeBits c fuel k g hk, Option.map_eq_some_iff] at h
  obtain ⟨⟨bs, g₁⟩, hbs, hr⟩ := h
  have hlen : bs.length = k := (takeBits_spec c fuel k g g₁ bs hbs).1
  cases hr
  exact ⟨bs, hbs, toNat_ofNat_bitsValue (hlen.trans_le hk)⟩

/-! ### `BIT` and `PACK 1` -/

theorem packBits_one : packBits c fuel 1 g = (nextBit c fuel g).map (fun r => (bitWord r.1, r.2)) := by
  cases h : nextBit c fuel g <;> simp [packBits, packLoop, orBit, h]

theorem refPack_one (hc : 1 ≤ c.packMax) : refPack c fuel 1 g = refBit c fuel g :=
  calc refPack c fuel 1 g
      = (packBits c fuel 1 g).map lastBeat := refPack_in_range hc
    _ = refBit c fuel g := by rw [packBits_one, Option.map_map]; rfl

/-! ### `BITS` and a sequence of `PACK 1` -/

theorem refBits_eq_some {n : Word} {beats : List Beat} (hn : n ≠ 0) (h : refBits c fuel n g = some (beats, g')) :
    ∃ bs : List Bit, takeBits c fuel n.toNat g = some (bs, g') ∧ beats = bitsBeats bs := by
  have hloop : refBits c fuel n g = bitsLoop c fuel n.toNat g := if_neg (by simpa [zeroCount] using hn)
  rw [hloop, bitsLoop_eq_takeBits, Option.map_eq_some_iff] at h
  obtain ⟨⟨bs, g₁⟩, hbs, hbeats⟩ := h
  cases hbeats
  exact ⟨bs, hbs, rfl⟩

theorem runCommands_replicate_pack_one (hc : 1 ≤ c.packMax) (n : Nat) (g : Gen) :
    runCommands c fuel (List.replicate n (.pack 1)) g =
      (takeBits c fuel n g).map (fun p => (p.1.map (fun b => ⟨.okLast, bitWord b⟩), p.2)) := by
  induction n generalizing g with
  | zero => rfl
  | succ n ih =>
    have hfirst : runCommand c fuel (.pack 1) g = refBit c fuel g := refPack_one hc
    rw [List.replicate_succ, runCommands, hfirst, refBit, takeBits]
    cases nextBit c fuel g with
    | none => rfl
    | some r =>
      simp only [Option.map_some, lastBeat, ih]
      cases takeBits c fuel n r.2 <;> rfl

end

/-! ### The data of the beats of `BITS` -/

theorem bitsBeats_map_data {α : Type} (f : Word → α) (bs : List Bit) :
    (bitsBeats bs).map (fun b => f b.data) = bs.map (fun b => f (bitWord b)) := by
  induction bs using bitsBeats.induct with
  | case1 => rfl
  | case2 b => rfl
  | case3 b b' rest ih => rw [bitsBeats, List.map_cons, ih]; rfl

theorem bitWord_bne_zero (b : Bit) : (bitWord b != 0) = b := by cases b <;> decide

theorem bitsBeats_map_bit (bs : List Bit) : (bitsBeats bs).map (fun b => b.data != 0) = bs :=
  calc (bitsBeats bs).map (fun b => b.data != 0)
      = bs.map (fun b => bitWord b != 0) := bitsBeats_map_data (· != 0) bs
    _ = bs := by simp only [bitWord_bne_zero, List.map_id']

/-- Settles O17: the pack is the value of the bits taken, and those bits are the next ones of the stream. -/
theorem packTakesNextBits : Obligations.PackTakesNextBits := by
  intro fuel k g g' r hk h
  obtain ⟨bs, hbs, hr⟩ := packBits_eq_some hk h
  obtain ⟨hlen, m, hq, hstate⟩ := takeBits_spec hw fuel k g g' bs hbs
  exact ⟨packBits_lt hk h, bs, m, hlen, hr, hq, hstate⟩

/-- The third clause of R121; `BITS 0` answers the one datum 0, which is the value of a pack of no bits. -/
theorem refPack_of_refBits {c : Config} {fuel : Nat} {g g' : Gen} {k : Word} {beats : List Beat} (hk : k.toNat ≤ c.packMax)
    (hc : c.packMax ≤ 64) (h : refBits c fuel k g = some (beats, g')) :
    refPack c fuel k g = some ([⟨.okLast, BitVec.ofNat 64 (bitsValue (beats.map (fun b => b.data != 0)))⟩], g') := by
  by_cases h0 : k = 0
  · subst h0
    rw [refBits_zero] at h
    cases h
    exact refPack_zero
  · obtain ⟨bs, hbs, rfl⟩ := refBits_eq_some h0 h
    rw [refPack_in_range hk, packBits_eq_takeBits c fuel k.toNat g (hk.trans hc), hbs, bitsBeats_map_bit]
    rfl

/-- Settles O18: all three commands take the same bits, and the beats of `BITS` carry them one by one. -/
theorem bitBitsPackAgree : Obligations.BitBitsPackAgree := by
  have hpack : 1 ≤ hw.packMax := by decide
  refine ⟨fun fuel a g => (refPack_one hpack).symm, fun fuel n g g' beats hn h => ?_, fun fuel k g g' beats hk h => ?_⟩
  · obtain ⟨bs, hbs, rfl⟩ := refBits_eq_some hn h
    rw [runCommands_replicate_pack_one hpack, hbs, bitsBeats_map_data (Beat.mk .okLast)]
    rfl
  · exact refPack_of_refBits hk le_rfl h

end Sys2Proof.Machine
end

section
/-!
A refused command on the machine (42_packer.md R120, 60_exceptions.md R162): one run lemma for the shared refusal, whatever the opcode and
the error code, and the acceptances that lead to it.
-/

namespace Sys2Proof.Machine

/-- The beat of a refusal is taken at once, and the block is in `IDLE` with `OPR` and `RSP` alone changed (R160, R170). -/
theorem run_refuse {s : State} (hs : s.attentive) (hp : s.phase = .idle) (o : BitVec 3) (code : Word) :
    runSteps 1 ({ s with opr := o }.refuse code) =
      .next { s with opr := o, rsp := ⟨.err, code⟩, sent := s.sent ++ [⟨.err, code⟩] } := by
  obtain ⟨hrst, hready, hscript⟩ := hs
  calc runSteps 1 ({ s with opr := o }.refuse code)
      = .next ({ s with opr := o }.refuse code).transfer.endCommand :=
          run_last (s := { s with opr := o }.refuse code) hrst hscript hready rfl (by simp)
    _ = .next { s with opr := o, rsp := ⟨.err, code⟩, sent := s.sent ++ [⟨.err, code⟩], phase := .idle } := rfl
    _ = .next { s with opr := o, rsp := ⟨.err, code⟩, sent := s.sent ++ [⟨.err, code⟩] } := by rw [← hp]

theorem exec_pack_refused {a : Word} (ha : hw.packMax < a.toNat) (s : State) :
    exec (.pack a) s = .next ({ s with opr := 3 }.refuse errArg) :=
  if_pos (decide_eq_true ha)

/-- Settles O40: the acceptance is the shared refusal with the command's opcode, and `run_refuse` takes its beat. -/
theorem refusalChangesNothing : Obligations.RefusalChangesNothing := by
  intro s a hs hp
  refine ⟨⟨_, rfl, ?_⟩, ⟨_, rfl, ?_⟩, ⟨_, rfl, ?_⟩, ⟨_, rfl, ?_⟩, fun ha => ⟨_, exec_pack_refused ha s, ?_⟩⟩
  · exact run_refuse hs hp 0 errOp
  · exact run_refuse hs hp 5 errOp
  · exact run_refuse hs hp 6 errOp
  · exact run_refuse hs hp 7 errOp
  · exact run_refuse hs hp 3 errArg

end Sys2Proof.Machine
end

section
/-!
The width of a sample (00_scope.md R12, 43_sampler.md R127, R133): `bitlen` brackets its operand, is a legal pack operand, and drops at
`max − 1` exactly when `max` is a power of two.
-/

namespace Sys2Proof.Machine

section

variable {v : Word}

theorem lt_two_pow_bitlen (v : Word) : v.toNat < 2 ^ bitlen v := Nat.lt_log2_self

theorem two_pow_le_of_bitlen (hv : 1 ≤ v.toNat) : 2 ^ (bitlen v - 1) ≤ v.toNat := Nat.log2_self_le (by omega)

theorem two_le_bitlen (hv : 2 ≤ v.toNat) : 2 ≤ bitlen v :=
  Nat.succ_le_succ ((Nat.le_log2 (by omega)).mpr hv)

theorem bitlen_le_64 (hv : 1 ≤ v.toNat) : bitlen v ≤ 64 :=
  (Nat.log2_lt (by omega)).mpr v.isLt

theorem boundedWidth_toNat (hv : 1 ≤ v.toNat) : (boundedWidth v).toNat = bitlen v := by
  have hlen : bitlen v ≤ 64 := bitlen_le_64 hv
  rw [boundedWidth, BitVec.toNat_ofNat, Nat.mod_eq_of_lt (by omega)]

/-- Of the bracket of `bitlen v`, `v − 1` can only miss the lower end, and does so when `v` stands on it. -/
theorem bitlen_sub_one_eq_iff (hv : 2 ≤ v.toNat) : bitlen (v - 1) = bitlen v ↔ v.toNat ≠ 2 ^ v.toNat.log2 := by
  have hsub : (v - 1).toNat = v.toNat - 1 := BitVec.toNat_sub_of_le (BitVec.le_def.mpr (by simp; omega))
  have hlow : 2 ^ v.toNat.log2 ≤ v.toNat := Nat.log2_self_le (by omega)
  have hhigh : v.toNat < 2 ^ (v.toNat.log2 + 1) := Nat.lt_log2_self
  rw [bitlen, bitlen, hsub, Nat.succ_inj, Nat.log2_eq_iff (by omega)]
  omega

theorem bitlen_ne_bitlen_sub_one_iff (hv : 2 ≤ v.toNat) :
    bitlen v ≠ bitlen (v - 1) ↔ ∃ m : Nat, v.toNat = 2 ^ m := by
  rw [ne_comm, Ne, bitlen_sub_one_eq_iff hv, not_not]
  constructor
  · exact fun h => ⟨_, h⟩
  · rintro ⟨m, hm⟩
    rw [hm, Nat.log2_two_pow]

end

/-- Settles O19: the bracket of `bitlen`, its range, and the drop below a power of two. -/
theorem widthOfMax : Obligations.WidthOfMax := fun _ hmax =>
  ⟨two_pow_le_of_bitlen hmax, lt_two_pow_bitlen _, fun htwo =>
    ⟨two_le_bitlen htwo, bitlen_le_64 hmax, boundedWidth_toNat hmax, bitlen_ne_bitlen_sub_one_iff htwo⟩⟩

end Sys2Proof.Machine
end

section
/-!
The rejection loop (43_sampler.md R128, R129, R131, R132). An attempt that ends takes `width` bits and either is the result or leaves the
rest of the loop; so a sample that ends is one take of the bits of all its attempts.
-/

namespace Sys2Proof.Machine

section

variable {c : Config} {fuel : Nat} {g g₁ g' : Gen} {max v : Word}

theorem takeBits_append {m n : Nat} {bs bs' : List Bit} (h : takeBits c fuel m g = some (bs, g₁))
    (h' : takeBits c fuel n g₁ = some (bs', g')) : takeBits c fuel (m + n) g = some (bs ++ bs', g') := by
  rw [takeBits_add, h, Option.bind_some, h', Option.map_some]

theorem sample_eq_sampleLoop (hmax : 2 ≤ max.toNat) : sample c fuel max g = sampleLoop c fuel (bitlen max) max fuel g :=
  if_neg (by simp only [degenerateMax, decide_eq_true_eq]; omega)

/-- What one attempt of a loop that ends can do: its candidate is the result, or is at or above `max` and the loop goes on (R128). -/
theorem sampleLoop_succ_eq_some {width attempts : Nat} (hwidth : width ≤ 64)
    (h : sampleLoop c fuel width max (attempts + 1) g = some (v, g')) :
    ∃ (bs : List Bit) (g₁ : Gen), takeBits c fuel width g = some (bs, g₁) ∧
      ((bitsValue bs = v.toNat ∧ g₁ = g') ∨
        (max.toNat ≤ bitsValue bs ∧ sampleLoop c fuel width max attempts g₁ = some (v, g'))) := by
  rw [sampleLoop] at h
  split at h
  · cases h
  · next u g₁ hpack =>
    obtain ⟨bs, hbs, hu⟩ := packBits_eq_some hwidth hpack
    refine ⟨bs, g₁, hbs, ?_⟩
    split at h
    · cases h
      exact .inl ⟨hu.symm, rfl⟩
    · next hreject =>
      simp only [acceptFlag, decide_eq_true_eq, Nat.not_lt] at hreject
      exact .inr ⟨hu ▸ hreject, h⟩

/-- A loop that ends took the whole width of each rejected candidate and of the accepted one (R132). -/
theorem sampleLoop_takes_whole_attempts {width : Nat} (hwidth : width ≤ 64) (attempts : Nat) :
    ∀ g : Gen, sampleLoop c fuel width max attempts g = some (v, g') →
    ∃ (rejected : List (List Bit)) (last : List Bit),
      (∀ bs ∈ rejected, bs.length = width ∧ max.toNat ≤ bitsValue bs) ∧
      last.length = width ∧ bitsValue last = v.toNat ∧
      takeBits c fuel (rejected.length * width + width) g = some (rejected.flatten ++ last, g') := by
  induction attempts with
  | zero => intro g h; cases h
  | succ attempts ih =>
    intro g h
    obtain ⟨bs, g₁, hbs, hattempt⟩ := sampleLoop_succ_eq_some hwidth h
    have hlen : bs.length = width := (takeBits_spec c fuel width g g₁ bs hbs).1
    rcases hattempt with ⟨hv, rfl⟩ | ⟨hreject, hrest⟩
    · exact ⟨[], bs, by simp, hlen, hv, by simpa using hbs⟩
    · obtain ⟨rejected, last, hrejected, hlast, hv, htake⟩ := ih g₁ hrest
      refine ⟨bs :: rejected, last, List.forall_mem_cons.mpr ⟨⟨hlen, hreject⟩, hrejected⟩, hlast, hv, ?_⟩
      have hall := takeBits_append hbs htake
      rwa [← Nat.add_assoc, Nat.add_comm width, ← Nat.succ_mul, ← List.append_assoc] at hall

end

/-- Settles O20: the loop exits below `max` only, and a `max` of 0 or 1 answers 0 before the loop. -/
theorem sampleBelowMax : Obligations.SampleBelowMax := by
  refine fun fuel max v g g' h => ⟨fun hmax => sample_lt hmax h, fun hmax => ?_⟩
  rw [sample_degenerate hmax] at h
  cases h
  exact ⟨rfl, rfl⟩

/-- Settles O21: the take of all attempts is a take from `Q` and the groups of the words pulled. -/
theorem sampleTakesWholeAttempts : Obligations.SampleTakesWholeAttempts := by
  refine fun fuel max v g g' h => ⟨fun hmax => ((sampleBelowMax fuel max v g g' h).2 hmax).2, fun hmax => ?_⟩
  have hpos : 1 ≤ max.toNat := Nat.one_le_of_lt hmax
  have hlt : v.toNat < max.toNat := sample_lt hpos h
  rw [sample_eq_sampleLoop hmax] at h
  obtain ⟨rejected, last, hrejected, hlast, hv, htake⟩ := sampleLoop_takes_whole_attempts (bitlen_le_64 hpos) fuel g h
  obtain ⟨-, m, hq, hstate⟩ := takeBits_spec hw fuel _ g g' _ htake
  exact ⟨rejected, last, m, hrejected, hlast, hv, hlt, hq, hstate⟩

end Sys2Proof.Machine
end

section
/-!
Reset as construction (10_state.md R35, 70_reset_and_hazards.md R181, R187): the seed after normalisation, and that the straps reach
the block and the command-level reference through that seed only.
-/

namespace Sys2Proof.Machine

section

variable {c : Config}

theorem seedState_ne_zero (hsubst : c.zeroSeedSubst ≠ 0) (sel : Bool) (seedIn : Word) : seedState c sel seedIn ≠ 0 := by
  by_cases hseed : (if sel then seedIn else c.defaultSeed) = 0
  · have hstate : seedState c sel seedIn = c.zeroSeedSubst := if_pos hseed
    rwa [hstate]
  · have hstate : seedState c sel seedIn = if sel then seedIn else c.defaultSeed := if_neg hseed
    rwa [hstate]

theorem seedState_strapped_zero : seedState c true 0 = c.zeroSeedSubst := rfl

theorem seedState_strapped_of_ne_zero {x : Word} (hx : x ≠ 0) : seedState c true x = x := if_neg hx

/-- A zero seed and the substitute for it are the same seed (R181). -/
theorem seedState_strapped_zero_eq_subst (hsubst : c.zeroSeedSubst ≠ 0) :
    seedState c true 0 = seedState c true c.zeroSeedSubst := by
  rw [seedState_strapped_zero, seedState_strapped_of_ne_zero hsubst]

@[simp] theorem State.construct_len (s : State) : (s.construct c).len = 0 := rfl

/-- A block just constructed offers no beat, in reset or out of it (R35, R60). -/
@[simp] theorem State.construct_rspValid (s : State) : (s.construct c).rspValid = false := by
  simp [State.rspValid]

/-- Two seeds with one normalised value construct one block; only the strap itself tells them apart. -/
theorem State.construct_eq_of_seedState_eq {x y : Word} (h : seedState c true x = seedState c true y) (s : State) :
    ({ s with seedSel := true, seedIn := x } : State).construct c =
      { ({ s with seedSel := true, seedIn := y } : State).construct c with seedIn := x } := by
  simp [State.construct, h]

theorem genReset_eq_of_seedState_eq {x y : Word} (h : seedState c true x = seedState c true y) :
    genReset c true x = genReset c true y := by
  rw [genReset, genReset, h]

end

/-- Settles O48: `STATE` is the normalised seed, which is never 0, and construction gives every other register its value. -/
theorem resetValues : Obligations.ResetValues := by
  intro s
  have hne : (s.construct hw).state ≠ 0 := seedState_ne_zero (by decide) s.seedSel s.seedIn
  refine ⟨rfl, hne, ?_⟩
  simp

/-- Settles O51: 0 and its substitute 1 are one seed after normalisation, and the block and the reference see nothing else of it. -/
theorem seedZeroEqualsSeedOne : Obligations.SeedZeroEqualsSeedOne := by
  have hseed : seedState hw true 0 = seedState hw true 1 := seedState_strapped_zero_eq_subst (by decide)
  refine ⟨fun s => State.construct_eq_of_seedState_eq hseed s, fun fuel is => ?_⟩
  rw [genReset_eq_of_seedState_eq hseed]

end Sys2Proof.Machine
end

section
/-!
Decoding and encoding (30_encoding.md R61, R63, R74). A command is determined by its opcode and its operand, and `decode` reads them from
the two fields of the word; the round trip, the opcode map by mask and the spelled-out words are readings of that.
-/

namespace Sys2Proof

theorem decode_fields (w : CmdWord) : opcodeOf (decode w) = opField w ∧ operandOf (decode w) = argField w := by
  rcases opcode_cases (opField w) with h | h | h | h | h | h | h | h <;> simp [decode, h, opcodeOf, operandOf]

@[simp] theorem decode_encode (i : Instr) : decode (encode i) = i := by
  have hop : opField (encode i) = opcodeOf i := opField_append _ _
  have harg : argField (encode i) = operandOf i := argField_append _ _
  rw [decode, hop, harg]
  cases i <;> rfl

theorem encode_decode (w : CmdWord) : encode (decode w) = w := by
  obtain ⟨hop, harg⟩ := decode_fields w
  rw [encode, hop, harg, append_fields]

theorem decode_eq_iff {w : CmdWord} {i : Instr} : decode w = i ↔ opField w = opcodeOf i ∧ argField w = operandOf i := by
  constructor
  · rintro rfl
    obtain ⟨hop, harg⟩ := decode_fields w
    exact ⟨hop.symm, harg.symm⟩
  · rintro ⟨hop, harg⟩
    rw [← decode_encode i, encode, ← hop, ← harg, append_fields]

/-- Settles O1: `decode` reads back the two fields that `encode` concatenates. -/
theorem decodeEncodeRoundTrip : Obligations.DecodeEncodeRoundTrip :=
  ⟨fun i _ => decode_encode i, encode_decode⟩

/-- One row of the opcode map: the mask keeps field `op` and clears field `arg` (R74). -/
theorem masked_eq_iff_decode_eq {w row : CmdWord} {i : Instr} (o : BitVec 3) (hrow : row = (o ++ 0#64 : CmdWord))
    (hop : opcodeOf i = o) (harg : argField w = operandOf i) : w &&& 0x70000000000000000#67 = row ↔ decode w = i := by
  rw [mask_op, hrow, decode_eq_iff, hop]
  constructor
  · intro h
    have hfield := congrArg opField h
    rw [opField_append, opField_append] at hfield
    exact ⟨hfield, harg⟩
  · rintro ⟨hfield, -⟩
    rw [hfield]

/-- Settles O2: each match is the row's opcode above a zero operand. -/
theorem opcodeMapByMask : Obligations.OpcodeMapByMask := by
  refine fun w => ⟨?_, ?_, ?_, ?_, ?_, ?_, ?_, ?_⟩
  · exact masked_eq_iff_decode_eq 1 (by decide) rfl rfl
  · exact masked_eq_iff_decode_eq 2 (by decide) rfl rfl
  · exact masked_eq_iff_decode_eq 3 (by decide) rfl rfl
  · exact masked_eq_iff_decode_eq 4 (by decide) rfl rfl
  · exact masked_eq_iff_decode_eq 0 (by decide) rfl rfl
  · exact masked_eq_iff_decode_eq 5 (by decide) rfl rfl
  · exact masked_eq_iff_decode_eq 6 (by decide) rfl rfl
  · exact masked_eq_iff_decode_eq 7 (by decide) rfl rfl

/-- Settles O4: the two fields of each word are the opcode and the operand of its command. -/
theorem spelledWordsDecode : Obligations.SpelledWordsDecode := by
  unfold Obligations.SpelledWordsDecode
  simp only [decode_eq_iff]
  decide

end Sys2Proof

namespace Sys2Proof.Machine

section

variable {c : Config} {l : SourceLine}

theorem assemble_of_wellFormed (h : l.wellFormed = true) : assemble c l = .ok (lineMeaning c l) := if_pos h

theorem assemble_of_not_wellFormed (h : l.wellFormed = false) : assemble c l = .error .numberOutOfRange := by
  rw [assemble, h, if_neg Bool.false_ne_true]

end

theorem numberInRange_of_lt {n : Nat} (h : n < 2 ^ 64) : numberInRange n = true := decide_eq_true h

theorem numberInRange_of_ge {n : Nat} (h : 2 ^ 64 ≤ n) : numberInRange n = false := decide_eq_false (Nat.not_lt.mpr h)

theorem cmd_wellFormed {o n : Nat} (ho : o < 8) (hn : n < 2 ^ 64) : (SourceLine.cmd o n).wellFormed = true := by
  rw [SourceLine.wellFormed, numberInRange_of_lt hn, decide_eq_true ho, Bool.and_self]

theorem cmd_not_wellFormed {o n : Nat} (h : 8 ≤ o ∨ 2 ^ 64 ≤ n) : (SourceLine.cmd o n).wellFormed = false := by
  rcases h with ho | hn
  · rw [SourceLine.wellFormed, decide_eq_false (Nat.not_lt.mpr ho), Bool.false_and]
  · rw [SourceLine.wellFormed, numberInRange_of_ge hn, Bool.and_false]

theorem rawWord_toNat {o n : Nat} (ho : o < 8) (hn : n < 2 ^ 64) :
    (BitVec.ofNat 3 o ++ BitVec.ofNat 64 n : CmdWord).toNat = o * 2 ^ 64 + n := by
  rw [fieldsWord_toNat, BitVec.toNat_ofNat, BitVec.toNat_ofNat, Nat.mod_eq_of_lt ho, Nat.mod_eq_of_lt hn]

/-- Settles O6: a line in range stands for its meaning, and a line out of range is rejected whatever it would mean. -/
theorem textFormAssembles : Obligations.TextFormAssembles := by
  refine ⟨rfl, rfl, rfl, fun n hn => ?accepted, fun n hn => ?rejected, fun o n ho => ?rejectedOp⟩
  case accepted =>
    have hin : numberInRange n = true := numberInRange_of_lt hn
    refine ⟨?_, ?_, ?_, ?_, fun o ho => ⟨_, assemble_of_wellFormed (cmd_wellFormed ho hn), rawWord_toNat ho hn⟩⟩
    · exact assemble_of_wellFormed hin
    · exact assemble_of_wellFormed hin
    · exact assemble_of_wellFormed hin
    · exact assemble_of_wellFormed hin
  case rejected =>
    have hout : numberInRange n = false := numberInRange_of_ge hn
    refine ⟨?_, ?_, ?_, ?_, fun o => assemble_of_not_wellFormed (cmd_not_wellFormed (.inr hn))⟩
    · exact assemble_of_not_wellFormed hout
    · exact assemble_of_not_wellFormed hout
    · exact assemble_of_not_wellFormed hout
    · exact assemble_of_not_wellFormed hout
  case rejectedOp => exact assemble_of_not_wellFormed (cmd_not_wellFormed (.inl ho))

end Sys2Proof.Machine
end

section
/-!
The scrambler for any parameters (93_implementation_defined.md U19), its one fixed point `STATE` = 0 (40_scrambler.md R88), and the
bounds of a refill from an empty `Q` (41_whitener.md R98, R101).
-/

namespace Sys2Proof.Machine

/-- Settles O10: the stages are injective for any amounts and directions, and the multiplication for any odd multiplier. -/
theorem scramblerAnyParameters : Obligations.ScramblerAnyParameters := by
  refine fun c hc => ⟨?_, ?_, xsState_zero c, xsOutput_zero c, fun x hx => ⟨?_, ?_⟩⟩
  · exact wordMap_bijective (xsState_injective hc)
  · exact wordMap_bijective (xsOutput_injective hc)
  · exact (xsState_eq_zero_iff hc).not.mpr hx
  · exact (xsWord_eq_zero_iff hc).not.mpr hx

theorem xsWord_zero (c : Config) : xsWord c 0 = 0 := by rw [xsWord, xsState_zero, xsOutput_zero]

/-- No pair of a zero word differs. -/
theorem group_zero (c : Config) : group c 0 = [] := by
  have hbit (i : Nat) : wordBit 0#64 i = false := BitVec.getLsbD_zero
  rw [group_eq_survivors]
  simp [hbit]

theorem genPull_zero (c : Config) (q : List Bit) : genPull c ⟨0, q⟩ = ⟨0, q⟩ := by
  rw [genPull, xsState_zero, xsWord_zero, group_zero, List.append_nil]

/-- From `STATE` = 0 a pull changes nothing, so a low `Q` stays low (R88). -/
theorem refill_zero_state {c : Config} {q : List Bit} (hlow : lowFlag c q = true) (fuel : Nat) : refill c fuel ⟨0, q⟩ = none := by
  induction fuel with
  | zero => exact refill_zero hlow
  | succ fuel ih => rw [refill_succ hlow, genPull_zero, ih]

/-- Settles O11: 0 is a fixed point of both maps, and a pull from there adds no bit. -/
theorem scramblerZeroStuck : Obligations.ScramblerZeroStuck :=
  ⟨xsState_zero hw, xsWord_zero hw, refill_zero_state (by decide)⟩

/-- Settles O14: the loop runs at least once from an empty `Q`, ends at `THRESH` bits or more, and its last pull started below that. -/
theorem refillBounds : Obligations.RefillBounds := by
  intro fuel g g' hq h
  obtain ⟨-, m, hstate, hbits, hfirst⟩ := refill_spec hw fuel g g' h
  obtain ⟨hm, hcap⟩ := hfirst (by rw [hq]; rfl)
  exact ⟨refill_length_ge h, hcap, m, hm, hstate, by rw [hbits, hq, List.nil_append]⟩

end Sys2Proof.Machine
end

section
/-!
The rules of each step (44_sequencer.md R142 to R146; 30_encoding.md R60): acceptance branch by branch, the output ports, and the step of
each phase in registers. Each obligation here is the rule of the phase, read through the equations of `Laws/Step`.
-/

namespace Sys2Proof.Machine

/-! ### Acceptance, branch by branch -/

theorem exec_bits_zero (s : State) : exec (.bits 0) s = .next ({ s with opr := 2, rem := 0 }.offerReply .doneEmpty 0) := rfl

theorem exec_bits_of_ne_zero {n : Word} (hn : n ≠ 0) (s : State) :
    exec (.bits n) s = .next ({ s with opr := 2, rem := n }.startPack 1) :=
  if_neg (by simpa [zeroCount] using hn)

theorem exec_pack_in_range {k : Word} (hk : k.toNat ≤ hw.packMax) (s : State) :
    exec (.pack k) s = .next ({ s with opr := 3 }.startPack (packCount k)) :=
  if_neg (by simpa [packTooLarge] using hk)

theorem exec_bounded_degenerate {max : Word} (hmax : max.toNat ≤ 1) (s : State) :
    exec (.bounded max) s = .next ({ s with opr := 4 }.offerReply .okLast 0) :=
  if_pos (decide_eq_true hmax)

theorem exec_bounded_of_two_le {max : Word} (hmax : 2 ≤ max.toNat) (s : State) :
    exec (.bounded max) s = .next ({ s with opr := 4, maxr := max }.startPack (boundedWidth max)) :=
  if_neg (by simp only [degenerateMax, decide_eq_true_eq]; omega)

theorem packCount_eq_ofNat (k : Word) : packCount k = BitVec.ofNat 7 k.toNat := by
  apply BitVec.eq_of_toNat_eq
  rw [packCount, BitVec.extractLsb'_toNat, BitVec.toNat_ofNat, Nat.shiftRight_zero]

/-- Settles O25: each opcode by its branches; the commands without a range check have one branch. -/
theorem acceptEachCommand : Obligations.AcceptEachCommand := by
  refine fun s a _ => ⟨rfl, ?bits, ?pack, ?bounded, rfl, rfl, rfl, rfl⟩
  case bits =>
    by_cases h : a = 0
    · rw [if_pos h, h, exec_bits_zero]; rfl
    · rw [if_neg h, exec_bits_of_ne_zero h]; rfl
  case pack =>
    by_cases h : 64 < a.toNat
    · rw [if_pos h, exec_pack_refused h]; rfl
    · rw [if_neg h, exec_pack_in_range (Nat.not_lt.mp h), packCount_eq_ofNat]; rfl
  case bounded =>
    by_cases h : a.toNat ≤ 1
    · rw [if_pos h, exec_bounded_degenerate h]; rfl
    · rw [if_neg h, exec_bounded_of_two_le (Nat.not_le.mp h), boundedWidth]; rfl

theorem acceptStep_none {s : State} (h : s.cmd = none) : acceptStep s = .next s := by simp [acceptStep, h]

theorem acceptStep_some {s : State} {w : CmdWord} (h : s.cmd = some w) : acceptStep s = exec (decode w) s.takeCommand := by
  simp [acceptStep, h]

/-- Everything step `ACCEPT` can do, if it goes on. -/
theorem acceptStep_cases {s t : State} (h : acceptStep s = .next t) :
    (s.cmd = none ∧ t = s) ∨ ∃ w, s.cmd = some w ∧ exec (decode w) s.takeCommand = .next t := by
  cases hc : s.cmd with
  | none => rw [acceptStep_none hc] at h; cases h; exact .inl ⟨rfl, rfl⟩
  | some w => rw [acceptStep_some hc] at h; exact .inr ⟨w, rfl, h⟩

/-- Settles O26: in `IDLE` the step is `ACCEPT`, and `ACCEPT` is `exec` of the decoded word. -/
theorem stepRunsDecodedCommand : Obligations.StepRunsDecodedCommand := by
  refine fun s hr hp => ⟨fun w i hcmd hdecode => ?_, fun hcmd => ?_⟩
  · rw [step_idle hr hp, acceptStep_some hcmd, hdecode]; rfl
  · rw [step_idle hr hp, acceptStep_none hcmd]; rfl

/-! ### The steps of the other phases -/

theorem State.drawBit_eq {s : State} {b : Bit} {rest : List Bit} (hq : s.q = b :: rest) : s.drawBit b =
    { s with q := rest, head := s.head + 1, acc := writeBit s.acc s.cnt.toNat b, cnt := s.cnt + 1 } := by
  simp [State.drawBit, State.fifoPop, hq]

/-- Settles O27: the three tests of `NEED`; a bit drawn is `State.drawBit`. -/
theorem needStepRule : Obligations.NeedStepRule := by
  refine fun s hr hp => ⟨fun hc => ?complete, fun hc hq => ?empty, fun b rest hc hq hlt => ⟨s.drawBit b, ?step, ?draw, ?acc⟩⟩
  case complete => rw [step_need hr hp, needStep_check hc]; rfl
  case empty => rw [step_need hr hp, needStep_fill hc hq]; rfl
  case step => rw [step_need hr hp, needStep_draw hc hq (Nat.lt_succ_of_le hlt)]; rfl
  case draw => rw [State.drawBit_eq hq]
  case acc => exact fun i hi => wordBit_writeBit s.acc s.cnt.toNat i b hi

/-- Settles O28: `LOW` decides between a pull and the end of the refill. -/
theorem fillStepRule : Obligations.FillStepRule := by
  refine fun s hr hp => ⟨fun hhigh => ?_, fun hlow => ?_⟩
  · rw [step_fill hr hp, fillStep_done (decide_eq_false (Nat.not_lt.mpr hhigh))]; rfl
  · rw [step_fill hr hp, fillStep_pull (decide_eq_true hlow)]; rfl

/-- Settles O29: `OPR` selects the branch, and `BOUNDED` compares unsigned. -/
theorem checkStepRule : Obligations.CheckStepRule := by
  refine fun s hr hp => ⟨fun ho => ?pack, fun ho hrem => ?bits, fun ho hlt => ?accept, fun ho hge => ?reject⟩
  case pack => rw [step_check hr hp, checkStep_pack ho]; rfl
  case bits =>
    have hlast : s.rem - 1 = 0 ↔ s.rem = 1 := by bv_omega
    rw [step_check hr hp, checkStep_bits ho hrem]
    simp only [hlast]
    rfl
  case accept => rw [step_check hr hp, checkStep_accept ho (decide_eq_true hlt)]; rfl
  case reject => rw [step_check hr hp, checkStep_reject ho (decide_eq_false (Nat.not_lt.mpr hge))]; rfl

/-- Settles O30: `rsp_ready` decides whether the beat is taken, and its status where the sequencer goes. -/
theorem respStepRule : Obligations.RespStepRule := by
  refine fun s hr hp => ⟨fun hready => ?hold, fun hready hmore => ?more, fun hready hlast => ?last⟩
  case hold => rw [step_resp hr hp, respStep_hold hready]; rfl
  case more => rw [step_resp hr hp, respStep_more hready hmore]; rfl
  case last => rw [step_resp hr hp, respStep_last hready hlast]; rfl

/-! ### Where the model stops (log 6) -/

theorem needStep_fault {s : State} (hc : s.cnt ≠ s.kreg) (hq : s.q ≠ []) (hlt : 64 ≤ s.cnt.toNat) :
    needStep s = .fault .packIndexOutOfRange := by
  obtain ⟨b, rest, hb⟩ := List.exists_cons_of_ne_nil hq
  simp [needStep, hc, hb, Nat.not_lt.mpr hlt]

theorem checkStep_reserved {s : State} (ho : s.opr = 0 ∨ s.opr = 5 ∨ s.opr = 6 ∨ s.opr = 7) :
    checkStep s = .fault .reservedOprAtCheck := by
  rcases ho with h | h | h | h <;> simp [checkStep, h]

theorem checkStep_bits_fault {s : State} (ho : s.opr = 2) (hrem : s.rem = 0) : checkStep s = .fault .remUnderflow := by
  simp [checkStep, ho, checkBits, hrem]

/-- Settles O56: the branches of `NEED` and `CHECK` that R143 and R145 give no effect. -/
theorem unreachableRegistersFault : Obligations.UnreachableRegistersFault := by
  refine ⟨fun s hr hp hc hq hlt => ?_, fun s hr hp ho => ?_, fun s hr hp ho hrem => ?_⟩
  · rw [step_need hr hp, needStep_fault hc hq hlt]; rfl
  · rw [step_check hr hp, checkStep_reserved ho]; rfl
  · rw [step_check hr hp, checkStep_bits_fault ho hrem]; rfl

/-! ### Output ports -/

theorem State.cmdReady_iff {s : State} : s.cmdReady = true ↔ s.rst = false ∧ s.phase = .idle := by
  simp [State.cmdReady]

theorem State.rspValid_iff {s : State} : s.rspValid = true ↔ s.rst = false ∧ s.phase = .resp := by
  simp [State.rspValid]

/-- Settles O31: both ports are a test of `PHASE` that `rst` masks. -/
theorem outputPortsFollowPhase : Obligations.OutputPortsFollowPhase := by
  refine fun s => ⟨fun hr => ⟨?_, ?_⟩, fun hr => ⟨?_, ?_⟩, fun hvalid => ?_, fun hvalid => ?_⟩
  · rw [State.cmdReady_iff, and_iff_right hr]
  · rw [State.rspValid_iff, and_iff_right hr]
  · rw [State.cmdReady, hr]; rfl
  · rw [State.rspValid, hr]; rfl
  · rw [State.rspOut, if_pos hvalid]
  · rw [State.rspOut, hvalid, if_neg Bool.false_ne_true]

end Sys2Proof.Machine
end

section
/-!
Reset as an act of the host (70_reset_and_hazards.md R180, R183): construction at once, held while `rst` = 1, ready after release.
-/

namespace Sys2Proof.Machine

/-- While `rst` is 1 a block in its reset state stays there; only the host moves (R180). -/
theorem step_construct {s : State} (hr : s.rst = true) : step (s.construct hw) = .next (hostTurn hw (s.construct hw)) :=
  step_reset (s := s.construct hw) hr

/-- Settles O49: `State.reset` holds the values that construction gives. -/
theorem resetStateIsConstructed : Obligations.ResetStateIsConstructed :=
  ⟨rfl, rfl, rfl, rfl, rfl, rfl, rfl, rfl, rfl⟩

/-- Settles O50: the act is construction with new straps; the reset state is a fixed point of the block's step. -/
theorem resetConstructsFromAnyState : Obligations.ResetConstructsFromAnyState := by
  intro s sel x rest t
  have hold : step t = .next (hostTurn hw t) :=
    step_construct (s := { s with rst := true, seedSel := sel, seedIn := x, script := rest }) rfl
  exact ⟨rfl, rfl, rfl, rfl, rfl, rfl, rfl, rfl, rfl, rfl, rfl, rfl, rfl, rfl, hold, rfl, t.sameBlock_refl⟩

end Sys2Proof.Machine
end

section
/-!
What a step can do to the channels, to `PHASE`, and to `STATE` and `Q` (30_encoding.md R60, R188; 44_sequencer.md R151; 10_state.md R21 to
R24). One inversion lemma each for a step of the block; a turn of the host that leaves `rst` at 0 changes no register of the block.
-/

namespace Sys2Proof.Machine

/-! ### The block's step, by phase -/

section

variable {s : State}

theorem blockStep_reset (hr : s.rst = true) : blockStep s = .next (s.construct hw) := if_pos hr

theorem blockStep_idle (hr : s.rst = false) (hp : s.phase = .idle) : blockStep s = acceptStep s := by simp [blockStep, hr, hp]

theorem blockStep_need (hr : s.rst = false) (hp : s.phase = .need) : blockStep s = needStep s := by simp [blockStep, hr, hp]

theorem blockStep_fill (hr : s.rst = false) (hp : s.phase = .fill) : blockStep s = fillStep hw s := by simp [blockStep, hr, hp]

theorem blockStep_check (hr : s.rst = false) (hp : s.phase = .check) : blockStep s = checkStep s := by simp [blockStep, hr, hp]

theorem blockStep_resp (hr : s.rst = false) (hp : s.phase = .resp) : blockStep s = respStep s := by simp [blockStep, hr, hp]

end

/-! ### The host's turn -/

theorem hostTurn_sent (c : Config) (s : State) : (hostTurn c s).sent = s.sent := by
  rcases hostTurn_cases c s with ⟨_, _, _, _, h, -, -⟩ | ⟨_, _, _, h⟩
  · rw [h]
  · rw [h, State.construct_sent]

/-- A word that waits stays on the channel (R188). -/
theorem hostTurn_cmd (c : Config) {s : State} {w : CmdWord} (hcmd : s.cmd = some w) : (hostTurn c s).cmd = some w := by
  rcases hostTurn_cases c s with ⟨cmd, _, _, _, h, -, hkeep⟩ | ⟨_, _, _, h⟩
  · rw [h]; exact hkeep w hcmd
  · rw [h, State.construct_cmd]; exact hcmd

/-- A turn after which `rst` is 0 was no assertion of reset, so it left the block alone. -/
theorem hostTurn_sameBlock {c : Config} {s : State} (hr : (hostTurn c s).rst = false) : (hostTurn c s).sameBlock s := by
  rcases hostTurn_cases c s with ⟨_, _, _, _, h, -, -⟩ | ⟨_, _, _, h⟩
  · rw [h]; exact s.sameBlock_refl
  · rw [h, State.construct_rst] at hr; cases hr

/-! ### The channels -/

/-- Everything a step of the block can do to the two channels: `ACCEPT` takes the word, `RESP` sends the beat if the host is ready, and
no other step touches either. -/
theorem blockStep_channels {s t : State} (hr : s.rst = false) (h : blockStep s = .next t) :
    (s.phase = .idle ∧ t.cmd = none ∧ t.sent = s.sent) ∨
    (s.phase = .resp ∧ s.rspReady = true ∧ t.cmd = s.cmd ∧ t.sent = s.sent ++ [s.rsp]) ∨
    (s.phase ≠ .idle ∧ ¬ (s.phase = .resp ∧ s.rspReady = true) ∧ t.cmd = s.cmd ∧ t.sent = s.sent) := by
  rcases blockStep_cases hr h with ⟨hp, h⟩ | ⟨hp, h⟩ | ⟨hp, h⟩ | ⟨hp, h⟩ | ⟨hp, h⟩
  · rcases acceptStep_cases h with ⟨hcmd, rfl⟩ | ⟨w, -, hexec⟩
    · exact .inl ⟨hp, hcmd, rfl⟩
    · obtain ⟨-, -, -, -, -, -, hcmd, -, -, hsent, -⟩ := exec_frame hexec
      exact .inl ⟨hp, hcmd, hsent⟩
  · rcases needStep_cases h with ⟨-, rfl⟩ | ⟨-, -, rfl⟩ | ⟨-, -, b, rest, -, rfl⟩ <;>
      exact .inr (.inr ⟨by simp [hp], by simp [hp], rfl, rfl⟩)
  · rcases fillStep_cases h with ⟨-, rfl⟩ | ⟨-, rfl⟩ <;>
      exact .inr (.inr ⟨by simp [hp], by simp [hp], rfl, rfl⟩)
  · rcases checkStep_cases h with ⟨-, rfl⟩ | ⟨-, -, rfl⟩ | ⟨-, -, rfl⟩ | ⟨-, -, rfl⟩ <;>
      exact .inr (.inr ⟨by simp [hp], by simp [hp], rfl, rfl⟩)
  · rcases respStep_cases h with ⟨hready, rfl⟩ | ⟨hready, -, rfl⟩ | ⟨hready, -, rfl⟩
    · exact .inr (.inr ⟨by simp [hp], by simp [hready], rfl, rfl⟩)
    · exact .inr (.inl ⟨hp, hready, rfl, rfl⟩)
    · exact .inr (.inl ⟨hp, hready, rfl, rfl⟩)

/-- A step of the block takes a word exactly when `cmd_ready` is 1. -/
theorem blockStep_cmd {s t : State} (h : blockStep s = .next t) : t.cmd = if s.cmdReady then none else s.cmd := by
  cases hr : s.rst with
  | true =>
    rw [blockStep_reset hr] at h
    cases h
    simp [State.cmdReady, hr]
  | false =>
    rcases blockStep_channels hr h with ⟨hp, hcmd, -⟩ | ⟨hp, -, hcmd, -⟩ | ⟨hp, -, hcmd, -⟩ <;>
      simp [State.cmdReady, hr, hp, hcmd]

/-- A step of the block sends the beat in `RSP` exactly when `rsp_valid` and `rsp_ready` are both 1. -/
theorem blockStep_sent {s t : State} (h : blockStep s = .next t) :
    t.sent = if s.rspValid && s.rspReady then s.sent ++ [s.rsp] else s.sent := by
  cases hr : s.rst with
  | true =>
    rw [blockStep_reset hr] at h
    cases h
    simp [State.rspValid, hr]
  | false =>
    rcases blockStep_channels hr h with ⟨hp, -, hsent⟩ | ⟨hp, hready, -, hsent⟩ | ⟨-, hnot, -, hsent⟩
    · simp [State.rspValid, hp, hsent]
    · simp [State.rspValid, hr, hp, hready, hsent]
    · rw [if_neg (by simpa [State.rspValid, hr] using hnot), hsent]

/-- Settles O32: the block's step moves the channels by valid and ready, and the host's turn neither takes nor sends. -/
theorem handshakeTransfers : Obligations.HandshakeTransfers := by
  intro s t h
  obtain ⟨u, hu, rfl⟩ := step_next h
  have hcmd := blockStep_cmd hu
  have hsent := blockStep_sent hu
  refine ⟨fun w hword hbusy => ?waits, fun hboth => ?sent, fun hnot => ?kept, fun hready hscript => ?taken⟩
  case waits =>
    rw [hbusy, if_neg Bool.false_ne_true] at hcmd
    exact hostTurn_cmd _ (hcmd.trans hword)
  case sent => rw [hostTurn_sent, hsent, if_pos hboth]
  case kept => rw [hostTurn_sent, hsent, hnot, if_neg Bool.false_ne_true]
  case taken =>
    obtain ⟨hr, -⟩ := State.cmdReady_iff.mp hready
    obtain ⟨-, huscript⟩ := blockStep_ports hr hu
    rw [hostTurn_nil hw (huscript.trans hscript), hcmd, if_pos hready]

/-! ### The phase graph -/

theorem blockStep_phaseEdge {s t : State} (hr : s.rst = false) (h : blockStep s = .next t) :
    phaseEdge s.phase t.phase = true := by
  rcases blockStep_cases hr h with ⟨hp, h⟩ | ⟨hp, h⟩ | ⟨hp, h⟩ | ⟨hp, h⟩ | ⟨hp, h⟩
  · rcases acceptStep_cases h with ⟨-, rfl⟩ | ⟨w, -, hexec⟩
    · rw [hp]; rfl
    · obtain ⟨-, -, -, -, -, -, -, -, -, -, -, hneed | hresp⟩ := exec_frame hexec
      · rw [hp, hneed]; rfl
      · rw [hp, hresp]; rfl
  · rcases needStep_cases h with ⟨-, rfl⟩ | ⟨-, -, rfl⟩ | ⟨-, -, b, rest, -, rfl⟩ <;> simp [phaseEdge, hp]
  · rcases fillStep_cases h with ⟨-, rfl⟩ | ⟨-, rfl⟩ <;> simp [phaseEdge, hp]
  · rcases checkStep_cases h with ⟨-, rfl⟩ | ⟨-, -, rfl⟩ | ⟨-, -, rfl⟩ | ⟨-, -, rfl⟩ <;> simp [phaseEdge, hp]
  · rcases respStep_cases h with ⟨-, rfl⟩ | ⟨-, -, rfl⟩ | ⟨-, -, rfl⟩ <;> simp [phaseEdge, hp]

/-- Settles O33: the block's step keeps to the graph, and the host's turn without reset leaves `PHASE` alone. -/
theorem phaseGraph : Obligations.PhaseGraph := by
  intro s t hr htr h
  obtain ⟨u, hu, rfl⟩ := step_next h
  obtain ⟨-, -, -, hphase, -⟩ := hostTurn_sameBlock htr
  rw [hphase]
  exact blockStep_phaseEdge hr hu

/-! ### The writers of `STATE` and `Q` -/

/-- Everything a step of the block can do to `STATE`, `Q` and `HEAD`: nothing, one pop in `NEED`, or one whole pull in `FILL`. -/
theorem blockStep_writers {s t : State} (hr : s.rst = false) (h : blockStep s = .next t) :
    (t.state = s.state ∧ t.q = s.q ∧ t.head = s.head) ∨
    (s.phase = .need ∧ t.state = s.state ∧ t.head = s.head + 1 ∧ ∃ b : Bit, s.q = b :: t.q) ∨
    (s.phase = .fill ∧ s.q.length < 32 ∧ t.state = xsState hw s.state ∧ t.q = s.q ++ group hw (xsWord hw s.state) ∧
      t.head = s.head) := by
  rcases blockStep_cases hr h with ⟨-, h⟩ | ⟨hp, h⟩ | ⟨hp, h⟩ | ⟨-, h⟩ | ⟨-, h⟩
  · rcases acceptStep_cases h with ⟨-, rfl⟩ | ⟨w, -, hexec⟩
    · exact .inl ⟨rfl, rfl, rfl⟩
    · obtain ⟨hstate, hq, hhead, -⟩ := exec_frame hexec
      exact .inl ⟨hstate, hq, hhead⟩
  · rcases needStep_cases h with ⟨-, rfl⟩ | ⟨-, -, rfl⟩ | ⟨-, -, b, rest, hq, rfl⟩
    · exact .inl ⟨rfl, rfl, rfl⟩
    · exact .inl ⟨rfl, rfl, rfl⟩
    · exact .inr (.inl ⟨hp, rfl, rfl, b, by rw [State.drawBit_q, hq, List.tail_cons]⟩)
  · rcases fillStep_cases h with ⟨hlow, rfl⟩ | ⟨-, rfl⟩
    · exact .inr (.inr ⟨hp, of_decide_eq_true hlow, rfl, rfl, rfl⟩)
    · exact .inl ⟨rfl, rfl, rfl⟩
  · rcases checkStep_cases h with ⟨-, rfl⟩ | ⟨-, -, rfl⟩ | ⟨-, -, rfl⟩ | ⟨-, -, rfl⟩ <;> exact .inl ⟨rfl, rfl, rfl⟩
  · rcases respStep_cases h with ⟨-, rfl⟩ | ⟨-, -, rfl⟩ | ⟨-, -, rfl⟩ <;> exact .inl ⟨rfl, rfl, rfl⟩

/-- Settles O34: the block's step, and a turn of the host that leaves the block alone. -/
theorem scramblerAndFifoWriters : Obligations.ScramblerAndFifoWriters := by
  intro s t hr htr h
  obtain ⟨u, hu, rfl⟩ := step_next h
  obtain ⟨hstate, hq, hhead, -⟩ := hostTurn_sameBlock htr
  rw [hstate, hq, hhead]
  exact blockStep_writers hr hu

end Sys2Proof.Machine
end

section
/-!
The invariant of the block (10_state.md sections 2 and 3, 44_sequencer.md section 2). Its control part `State.ctrlInv` speaks of a command
in progress only, so it holds of every block in `IDLE`, whatever its working registers hold; every step of the block keeps it and answers
a next state under it. The obligations add the parts about `STATE`, `Q` and reset.
-/

namespace Sys2Proof.Machine

/-! ### What an acceptance can do -/

theorem exec_next (i : Instr) (s : State) : ∃ t, exec i s = .next t := by
  cases i with
  | bits n => exact (ite_eq_or_eq ..).elim (⟨_, ·⟩) (⟨_, ·⟩)
  | pack k => exact (ite_eq_or_eq ..).elim (⟨_, ·⟩) (⟨_, ·⟩)
  | bounded max => exact (ite_eq_or_eq ..).elim (⟨_, ·⟩) (⟨_, ·⟩)
  | bit a => exact ⟨_, rfl⟩
  | reserved0 a => exact ⟨_, rfl⟩
  | reserved5 a => exact ⟨_, rfl⟩
  | reserved6 a => exact ⟨_, rfl⟩
  | reserved7 a => exact ⟨_, rfl⟩

/-- Where an acceptance leads (R142): a pack is started, the one beat of a degenerate operand is offered, or the command is refused. A
refused command is refused at command level too, with the same code. -/
inductive Accepted (s : State) : Instr → State → Prop
  | bit (a : Word) : Accepted s (.bit a) ({ s with opr := 1 }.startPack 1)
  | bits {n : Word} (hn : n ≠ 0) : Accepted s (.bits n) ({ s with opr := 2, rem := n }.startPack 1)
  | pack {k : Word} (hk : k.toNat ≤ 64) : Accepted s (.pack k) ({ s with opr := 3 }.startPack (packCount k))
  | bounded {max : Word} (hmax : 2 ≤ max.toNat) :
      Accepted s (.bounded max) ({ s with opr := 4, maxr := max }.startPack (boundedWidth max))
  | empty : Accepted s (.bits 0) ({ s with opr := 2, rem := 0 }.offerReply .doneEmpty 0)
  | degenerate {max : Word} (hmax : max.toNat ≤ 1) : Accepted s (.bounded max) ({ s with opr := 4 }.offerReply .okLast 0)
  | refused {i : Instr} (o : BitVec 3) {code : Word} (hcode : code = errOp ∨ code = errArg)
      (href : ∀ fuel g, runCommand hw fuel i g = some ([⟨.err, code⟩], g)) : Accepted s i ({ s with opr := o }.refuse code)

/-- Everything an acceptance can do. -/
theorem accepted_of_exec {i : Instr} {s t : State} (h : exec i s = .next t) : Accepted s i t := by
  cases i with
  | bit a => cases h; exact .bit a
  | bits n =>
    by_cases hn : n = 0
    · subst hn; cases h; exact .empty
    · rw [exec_bits_of_ne_zero hn] at h; cases h; exact .bits hn
  | pack k =>
    by_cases hk : k.toNat ≤ 64
    · rw [exec_pack_in_range hk] at h; cases h; exact .pack hk
    · have hlarge : hw.packMax < k.toNat := Nat.lt_of_not_le hk
      rw [exec_pack_refused hlarge] at h; cases h
      exact .refused 3 (.inr rfl) fun _ _ => refPack_too_large hlarge
  | bounded max =>
    by_cases hmax : max.toNat ≤ 1
    · rw [exec_bounded_degenerate hmax] at h; cases h; exact .degenerate hmax
    · have hmax : 2 ≤ max.toNat := Nat.lt_of_not_le hmax
      rw [exec_bounded_of_two_le hmax] at h; cases h; exact .bounded hmax
  | reserved0 a => cases h; exact .refused 0 (.inl rfl) fun _ _ => rfl
  | reserved5 a => cases h; exact .refused 5 (.inl rfl) fun _ _ => rfl
  | reserved6 a => cases h; exact .refused 6 (.inl rfl) fun _ _ => rfl
  | reserved7 a => cases h; exact .refused 7 (.inl rfl) fun _ _ => rfl

theorem packCount_toNat {k : Word} (hk : k.toNat ≤ 64) : (packCount k).toNat = k.toNat := by
  rw [packCount_eq_ofNat, BitVec.toNat_ofNat, Nat.mod_eq_of_lt (by omega)]

theorem boundedWidth_le_64 {max : Word} (hmax : 2 ≤ max.toNat) : (boundedWidth max).toNat ≤ 64 := by
  rw [boundedWidth_toNat (by omega)]; exact bitlen_le_64 (by omega)

/-! ### The control part of the invariant -/

/-- The registers of the command in progress hold what its acceptance put there: the conclusion of `State.commandInv`. -/
def State.operandInv (s : State) : Prop :=
  (s.opr = 1 ∨ s.opr = 2 ∨ s.opr = 3 ∨ s.opr = 4) ∧ (s.opr = 1 → s.kreg = 1) ∧ (s.opr = 2 → s.kreg = 1 ∧ s.rem ≠ 0) ∧
  (s.opr = 4 → 2 ≤ s.maxr.toNat ∧ s.kreg = boundedWidth s.maxr)

/-- The parts of `State.Inv` that speak of a command in progress, the bounds of the pack only while one is being drawn. -/
def State.ctrlInv (s : State) : Prop :=
  (s.busy → s.packInv) ∧ s.commandInv ∧ s.phaseInv ∧ s.replyInv

section

variable {s t u : State}

theorem State.Inv.ctrlInv (h : s.Inv) : s.ctrlInv := by
  obtain ⟨-, -, hpack, hcommand, hphase, hreply, -⟩ := h
  exact ⟨fun _ => hpack, hcommand, hphase, hreply⟩

theorem State.ctrlInv.of_idle (hp : s.phase = .idle) : s.ctrlInv := by
  simp [State.ctrlInv, State.busy, State.phaseInv, hp]

theorem State.ctrlInv.of_resp (hp : s.phase = .resp)
    (hmore : s.rsp.status = .okMore → s.opr = 2 ∧ s.kreg = 1 ∧ s.rem ≠ 0 ∧ s.rsp.data.toNat ≤ 1)
    (hempty : s.rsp.status = .doneEmpty → s.rsp.data = 0)
    (herr : s.rsp.status = .err → s.rsp.data = errOp ∨ s.rsp.data = errArg) : s.ctrlInv :=
  ⟨by simp [State.busy, hp], by simp [State.busy, hp], by simp [State.phaseInv, hp], fun _ => ⟨hmore, hempty, herr⟩⟩

theorem State.ctrlInv.of_busy (hb : s.busy) (hpack : s.packInv) (hoperand : s.operandInv) (hphase : s.phaseInv) : s.ctrlInv :=
  ⟨fun _ => hpack, fun _ => hoperand, hphase, fun hp => by simp [State.busy, hp] at hb⟩

theorem State.operandInv.of_bits (ho : s.opr = 2) (hk : s.kreg = 1) (hrem : s.rem ≠ 0) : s.operandInv :=
  ⟨.inr (.inl ho), by simp [ho], fun _ => ⟨hk, hrem⟩, by simp [ho]⟩

/-- A fresh pack has drawn nothing. -/
theorem State.ctrlInv.of_fresh (hp : s.phase = .need) (hcnt : s.cnt = 0) (hacc : s.acc = 0) (hk : s.kreg.toNat ≤ 64)
    (hoperand : s.operandInv) : s.ctrlInv :=
  .of_busy (.inl hp) ⟨by simp [hcnt], hk, by simp [hcnt, hacc]⟩ hoperand (by simp [State.phaseInv, hp])

theorem offerReply_okLast_ctrlInv (s : State) (v : Word) : (s.offerReply .okLast v).ctrlInv :=
  .of_resp rfl (by simp) (by simp) (by simp)

theorem exec_ctrlInv {i : Instr} (h : exec i s = .next t) : t.ctrlInv := by
  cases accepted_of_exec h with
  | bit a => exact .of_fresh rfl rfl rfl (by simp) (by simp [State.operandInv])
  | bits hn => exact .of_fresh rfl rfl rfl (by simp) (.of_bits rfl rfl hn)
  | pack hk => exact .of_fresh rfl rfl rfl (by simpa [packCount_toNat hk] using hk) (by simp [State.operandInv])
  | bounded hmax => exact .of_fresh rfl rfl rfl (boundedWidth_le_64 hmax) (by simp [State.operandInv, hmax])
  | empty => exact .of_resp rfl (by simp) (fun _ => rfl) (by simp)
  | degenerate hmax => exact offerReply_okLast_ctrlInv _ 0
  | refused o hcode => exact .of_resp rfl (by simp [State.refuse]) (by simp [State.refuse]) (fun _ => hcode)

/-! ### The steps of a command in progress -/

theorem count_succ_toNat {n : BitVec 7} (h : n.toNat < 64) : (n + 1).toNat = n.toNat + 1 := by bv_omega

/-- One more bit in the pack: `CNT` stays at most `KREG`, and `ACC` below 2^`CNT` (R143). -/
theorem drawBit_packInv (hpack : s.packInv) (hne : s.cnt ≠ s.kreg) (b : Bit) : (s.drawBit b).packInv := by
  obtain ⟨hle, hk, hacc⟩ := hpack
  have hlt : s.cnt.toNat < s.kreg.toNat := by
    have := BitVec.toNat_ne_iff_ne.mpr hne
    omega
  have hcnt : (s.cnt + 1).toNat = s.cnt.toNat + 1 := count_succ_toNat (by omega)
  refine ⟨?_, hk, ?_⟩
  · rw [State.drawBit_cnt, hcnt]; exact hlt
  · rw [State.drawBit_cnt, State.drawBit_acc, hcnt, writeBit_eq_orBit _ _ _ hacc]
    exact orBit_lt _ _ _ hacc

theorem needStep_ctrlInv (hi : s.ctrlInv) (hp : s.phase = .need) (h : needStep s = .next t) : t.ctrlInv := by
  obtain ⟨hpack, hoperand, -, -⟩ := hi
  have hb : s.busy := .inl hp
  rcases needStep_cases h with ⟨hc, rfl⟩ | ⟨hc, -, rfl⟩ | ⟨hc, -, b, rest, -, rfl⟩
  · exact .of_busy (.inr (.inr rfl)) (hpack hb) (hoperand hb) ⟨by simp, fun _ => hc⟩
  · exact .of_busy (.inr (.inl rfl)) (hpack hb) (hoperand hb) ⟨fun _ => hc, by simp⟩
  · exact .of_busy hb (drawBit_packInv (hpack hb) hc b) (hoperand hb) (by simp [State.phaseInv, hp])

theorem fillStep_ctrlInv (hi : s.ctrlInv) (hp : s.phase = .fill) (h : fillStep hw s = .next t) : t.ctrlInv := by
  obtain ⟨hpack, hoperand, hphase, -⟩ := hi
  have hb : s.busy := .inr (.inl hp)
  rcases fillStep_cases h with ⟨-, rfl⟩ | ⟨-, rfl⟩
  · exact .of_busy hb (hpack hb) (hoperand hb) hphase
  · exact .of_busy (.inl rfl) (hpack hb) (hoperand hb) (by simp [State.phaseInv])

/-- The datum of a `BITS` beat is one bit, because the pack is complete at `CHECK` (R145). -/
theorem checkStep_ctrlInv (hi : s.ctrlInv) (hp : s.phase = .check) (h : checkStep s = .next t) : t.ctrlInv := by
  obtain ⟨hpack, hoperand, ⟨-, hcomplete⟩, -⟩ := hi
  have hb : s.busy := .inr (.inr hp)
  obtain ⟨-, hk, hacc⟩ := hpack hb
  have hop : s.operandInv := hoperand hb
  rcases checkStep_cases h with ⟨-, rfl⟩ | ⟨ho, -, rfl⟩ | ⟨-, -, rfl⟩ | ⟨-, -, rfl⟩
  · exact offerReply_okLast_ctrlInv s s.acc
  · obtain ⟨-, -, hbits, -⟩ := hop
    obtain ⟨hkreg, -⟩ := hbits ho
    have hdata : s.acc.toNat ≤ 1 := by
      rw [hcomplete hp, hkreg] at hacc
      exact Nat.le_of_lt_succ hacc
    by_cases hlast : s.rem - 1 = 0
    · rw [if_pos hlast]; exact offerReply_okLast_ctrlInv _ s.acc
    · rw [if_neg hlast]; exact .of_resp rfl (fun _ => ⟨ho, hkreg, hlast, hdata⟩) (by simp) (by simp)
  · exact offerReply_okLast_ctrlInv s s.acc
  · exact .of_fresh rfl rfl rfl hk hop

theorem respStep_ctrlInv (hi : s.ctrlInv) (hp : s.phase = .resp) (h : respStep s = .next t) : t.ctrlInv := by
  rcases respStep_cases h with ⟨-, rfl⟩ | ⟨-, hmore, rfl⟩ | ⟨-, -, rfl⟩
  · exact hi
  · obtain ⟨-, -, -, hreply⟩ := hi
    obtain ⟨hpending, -⟩ := hreply hp
    obtain ⟨ho, hk, hrem, -⟩ := hpending hmore
    exact .of_fresh rfl rfl rfl (by simp [hk]) (.of_bits ho hk hrem)
  · exact .of_idle rfl

theorem blockStep_ctrlInv (hr : s.rst = false) (hi : s.ctrlInv) (h : blockStep s = .next t) : t.ctrlInv := by
  rcases blockStep_cases hr h with ⟨hp, h⟩ | ⟨hp, h⟩ | ⟨hp, h⟩ | ⟨hp, h⟩ | ⟨hp, h⟩
  · rcases acceptStep_cases h with ⟨-, rfl⟩ | ⟨w, -, hexec⟩
    · exact hi
    · exact exec_ctrlInv hexec
  · exact needStep_ctrlInv hi hp h
  · exact fillStep_ctrlInv hi hp h
  · exact checkStep_ctrlInv hi hp h
  · exact respStep_ctrlInv hi hp h

/-! ### Every step answers -/

theorem acceptStep_next (s : State) : ∃ t, acceptStep s = .next t := by
  cases hcmd : s.cmd with
  | none => exact ⟨s, acceptStep_none hcmd⟩
  | some w => rw [acceptStep_some hcmd]; exact exec_next _ _

/-- A bit due goes to a position below `KREG`, so below 64 (R143). -/
theorem needStep_next (hpack : s.packInv) : ∃ t, needStep s = .next t := by
  obtain ⟨hle, hk, -⟩ := hpack
  by_cases hc : s.cnt = s.kreg
  · exact ⟨_, needStep_check hc⟩
  · cases hq : s.q with
    | nil => exact ⟨_, needStep_fill hc hq⟩
    | cons b rest =>
      have hne : s.cnt.toNat ≠ s.kreg.toNat := BitVec.toNat_ne_iff_ne.mpr hc
      exact ⟨_, needStep_draw hc hq (by omega)⟩

theorem fillStep_next (s : State) : ∃ t, fillStep hw s = .next t := by
  cases hlow : lowFlag hw s.q with
  | true => exact ⟨_, fillStep_pull hlow⟩
  | false => exact ⟨_, fillStep_done hlow⟩

theorem checkStep_next (hoperand : s.operandInv) : ∃ t, checkStep s = .next t := by
  obtain ⟨ho, -, hbits, -⟩ := hoperand
  rcases ho with ho | ho | ho | ho
  · exact ⟨_, checkStep_pack (.inl ho)⟩
  · exact ⟨_, checkStep_bits ho (hbits ho).2⟩
  · exact ⟨_, checkStep_pack (.inr ho)⟩
  · cases haccept : acceptFlag s.acc s.maxr with
    | true => exact ⟨_, checkStep_accept ho haccept⟩
    | false => exact ⟨_, checkStep_reject ho haccept⟩

theorem respStep_next (s : State) : ∃ t, respStep s = .next t := by
  cases hready : s.rspReady with
  | false => exact ⟨_, respStep_hold hready⟩
  | true =>
    by_cases hmore : s.rsp.status = .okMore
    · exact ⟨_, respStep_more hready hmore⟩
    · exact ⟨_, respStep_last hready hmore⟩

theorem step_next_of_block {r : Result} (hstep : step s = mapNext (hostTurn hw) r) (h : ∃ u, r = .next u) :
    ∃ t, step s = .next t := by
  obtain ⟨u, rfl⟩ := h
  exact ⟨_, hstep⟩

theorem step_answers (hi : s.ctrlInv) : ∃ t, step s = .next t := by
  obtain ⟨hpack, hoperand, -, -⟩ := hi
  cases hr : s.rst with
  | true => exact ⟨_, step_reset hr⟩
  | false =>
    cases hp : s.phase with
    | idle => exact step_next_of_block (step_idle hr hp) (acceptStep_next s)
    | need => exact step_next_of_block (step_need hr hp) (needStep_next (hpack (.inl hp)))
    | fill => exact step_next_of_block (step_fill hr hp) (fillStep_next s)
    | check => exact step_next_of_block (step_check hr hp) (checkStep_next (hoperand (.inr (.inr hp))))
    | resp => exact step_next_of_block (step_resp hr hp) (respStep_next s)

end

/-- Settles O54: the control part of the invariant is what `NEED` and `CHECK` need to go on. -/
theorem neverFaults : Obligations.NeverFaults := fun _ hi => step_answers hi.ctrlInv

/-- Settles O55: the one beat a step can send is `RSP`, whose shape the invariant fixes. -/
theorem errorCodesProduced : Obligations.ErrorCodesProduced := by
  intro s t hi h
  obtain ⟨u, hu, rfl⟩ := step_next h
  obtain ⟨-, -, -, -, -, hreply, -⟩ := hi
  rw [hostTurn_sent, blockStep_sent hu]
  by_cases hboth : (s.rspValid && s.rspReady) = true
  · rw [if_pos hboth]
    obtain ⟨-, hp⟩ := State.rspValid_iff.mp (Bool.and_eq_true_iff.mp hboth).1
    obtain ⟨-, -, herr⟩ := hreply hp
    exact .inr ⟨s.rsp, rfl, herr⟩
  · rw [if_neg hboth]
    exact .inl rfl

/-! ### The whole invariant -/

theorem State.construct_inv (s : State) : (s.construct hw).Inv := by
  obtain ⟨-, hcommand, hphase, hreply⟩ := State.ctrlInv.of_idle (State.construct_phase hw s)
  refine ⟨seedState_ne_zero (by decide) _ _, Nat.zero_le _, ?_, hcommand, hphase, hreply, fun _ => rfl⟩
  simp [State.packInv]

/-- Settles O52: construction zeroes every working register and never leaves `STATE` at 0. -/
theorem invariantAtReset : Obligations.InvariantAtReset :=
  ⟨State.construct_inv State.reset, State.construct_inv⟩

section

variable {s t : State}

theorem exec_packInv {i : Instr} (hpack : s.packInv) (h : exec i s = .next t) : t.packInv := by
  obtain ⟨hbusy, -⟩ := exec_ctrlInv h
  cases accepted_of_exec h with
  | bit a => exact hbusy (.inl rfl)
  | bits hn => exact hbusy (.inl rfl)
  | pack hk => exact hbusy (.inl rfl)
  | bounded hmax => exact hbusy (.inl rfl)
  | empty => exact hpack
  | degenerate hmax => exact hpack
  | refused o hcode => exact hpack

/-- The registers of the pack change only while a pack is drawn, which the control part covers. -/
theorem blockStep_packInv (hr : s.rst = false) (hpack : s.packInv) (hi : s.ctrlInv) (h : blockStep s = .next t) : t.packInv := by
  obtain ⟨hbusy, -⟩ := blockStep_ctrlInv hr hi h
  rcases blockStep_cases hr h with ⟨-, h⟩ | ⟨hp, h⟩ | ⟨hp, h⟩ | ⟨-, h⟩ | ⟨-, h⟩
  · rcases acceptStep_cases h with ⟨-, rfl⟩ | ⟨w, -, hexec⟩
    · exact hpack
    · exact exec_packInv (s := s.takeCommand) hpack hexec
  · rcases needStep_cases h with ⟨-, rfl⟩ | ⟨-, -, rfl⟩ | ⟨-, -, b, rest, -, rfl⟩
    · exact hpack
    · exact hpack
    · exact hbusy (.inl hp)
  · rcases fillStep_cases h with ⟨-, rfl⟩ | ⟨-, rfl⟩ <;> exact hpack
  · rcases checkStep_cases h with ⟨-, rfl⟩ | ⟨-, -, rfl⟩ | ⟨-, -, rfl⟩ | ⟨-, -, rfl⟩
    · exact hpack
    · exact hpack
    · exact hpack
    · exact hbusy (.inl rfl)
  · rcases respStep_cases h with ⟨-, rfl⟩ | ⟨-, -, rfl⟩ | ⟨-, -, rfl⟩
    · exact hpack
    · exact hbusy (.inl rfl)
    · exact hpack

/-- `XS.NEXT` keeps a non-zero `STATE` non-zero, and a pull starts below `THRESH`, so it ends within `FIFO_CAP` (R22, R25). -/
theorem blockStep_scramblerInv_fifoInv (hr : s.rst = false) (hstate : s.scramblerInv) (hfifo : s.fifoInv)
    (h : blockStep s = .next t) : t.scramblerInv ∧ t.fifoInv := by
  simp only [State.scramblerInv, State.fifoInv] at hstate hfifo ⊢
  rcases blockStep_writers hr h with ⟨hs, hq, -⟩ | ⟨-, hs, -, b, hq⟩ | ⟨-, hlow, hs, hq, -⟩
  · rw [hs, hq]
    exact ⟨hstate, hfifo⟩
  · rw [hq, List.length_cons] at hfifo
    rw [hs]
    exact ⟨hstate, Nat.le_of_succ_le hfifo⟩
  · have hgroup : (group hw (xsWord hw s.state)).length ≤ 32 := group_length_le hw _
    have hcap : fifoCap hw = 63 := rfl
    rw [hs, hq, List.length_append, hcap]
    exact ⟨(xsState_eq_zero_iff hw_wellFormed).not.mpr hstate, by omega⟩

theorem blockStep_inv (hi : s.Inv) (h : blockStep s = .next t) : t.Inv := by
  cases hr : s.rst with
  | true =>
    rw [blockStep_reset hr] at h
    cases h
    exact State.construct_inv s
  | false =>
    have hctrl := hi.ctrlInv
    obtain ⟨hstate, hfifo, hpack, -⟩ := hi
    obtain ⟨htstate, htfifo⟩ := blockStep_scramblerInv_fifoInv hr hstate hfifo h
    obtain ⟨-, hcommand, hphase, hreply⟩ := blockStep_ctrlInv hr hctrl h
    obtain ⟨hrst, -⟩ := blockStep_ports hr h
    refine ⟨htstate, htfifo, blockStep_packInv hr hpack hctrl h, hcommand, hphase, hreply, fun htr => ?_⟩
    rw [hrst, hr] at htr
    cases htr

theorem hostTurn_inv (hi : s.Inv) : (hostTurn hw s).Inv := by
  rcases hostTurn_cases hw s with ⟨cmd, ready, rst, script, h, hrst, -⟩ | ⟨sel, seedIn, script, h⟩
  · obtain ⟨hstate, hfifo, hpack, hcommand, hphase, hreply, hreset⟩ := hi
    rw [h]
    refine ⟨hstate, hfifo, hpack, hcommand, hphase, hreply, fun hrst' => ?_⟩
    cases hr : s.rst with
    | true => exact congrArg (fun u : State => { u with cmd := cmd, rspReady := ready, rst := rst, script := script }) (hreset hr)
    | false => exact absurd hrst' (by simp [hrst hr])
  · rw [h]
    exact State.construct_inv _

end

/-- Settles O53: the step of the block keeps the invariant, and so does the turn of the host. -/
theorem invariantKeptByStep : Obligations.InvariantKeptByStep := by
  intro s t hi h
  obtain ⟨u, hu, rfl⟩ := step_next h
  exact hostTurn_inv (blockStep_inv hi hu)

end Sys2Proof.Machine
end

section
/-!
A pack run to its end under a host that takes every beat (44_sequencer.md R143 to R146). Each run lemma ends where the command-level
operation ends, and says how many steps it takes when the bits wanted are all in `Q`.
-/

namespace Sys2Proof.Machine

/-! ### Bits taken from `Q` alone -/

section

variable {c : Config} {fuel : Nat}

theorem takeBits_of_le {n : Nat} {x : Word} {q : List Bit} (h : n ≤ q.length) :
    takeBits c fuel n ⟨x, q⟩ = some (q.take n, ⟨x, q.drop n⟩) := by
  induction n generalizing q with
  | zero => rfl
  | succ n ih =>
    cases q with
    | nil => simp at h
    | cons b rest => simp only [takeBits, nextBit_cons, ih (Nat.le_of_succ_le_succ h), List.take_succ_cons, List.drop_succ_cons]

theorem packBits_of_le {k : Nat} {x : Word} {q : List Bit} (hk : k ≤ 64) (h : k ≤ q.length) :
    packBits c fuel k ⟨x, q⟩ = some (BitVec.ofNat 64 (bitsValue (q.take k)), ⟨x, q.drop k⟩) := by
  rw [packBits_eq_takeBits c fuel k _ hk, takeBits_of_le h, Option.map_some]

end

/-! ### Steps under a host that does nothing -/

section

variable {s t : State} (hr : s.rst = false) (hs : t.script = [])
include hr hs

theorem step_need_quiet (hp : s.phase = .need) (h : needStep s = .next t) : step s = .next t :=
  step_quiet (by rw [step_need hr hp, h]) hs

theorem step_check_quiet (hp : s.phase = .check) (h : checkStep s = .next t) : step s = .next t :=
  step_quiet (by rw [step_check hr hp, h]) hs

theorem step_resp_quiet (hp : s.phase = .resp) (h : respStep s = .next t) : step s = .next t :=
  step_quiet (by rw [step_resp hr hp, h]) hs

end

section

variable {s : State} {fuel k : Nat} {v : Word} {g : Gen}

/-- The next bits of `Q` drawn into the accumulator, one step each (R143). -/
theorem run_draws (n : Nat) : ∀ s : State, s.rst = false → s.script = [] → s.phase = .need →
    s.kreg.toNat = s.cnt.toNat + n → s.kreg.toNat ≤ 64 → s.acc.toNat < 2 ^ s.cnt.toNat → n ≤ s.q.length →
    runSteps n s = .next { s with
      q := s.q.drop n, head := s.head + BitVec.ofNat 6 n, cnt := s.kreg,
      acc := BitVec.ofNat 64 (s.acc.toNat + 2 ^ s.cnt.toNat * bitsValue (s.q.take n)) } := by
  induction n with
  | zero =>
    intro s _ _ _ hk _ _ _
    have hcnt : s.cnt = s.kreg := BitVec.eq_of_toNat_eq hk.symm
    simp only [runSteps, bitsValue, List.take_zero, List.drop_zero, Nat.mul_zero, Nat.add_zero, BitVec.ofNat_toNat,
      BitVec.setWidth_eq, BitVec.add_zero]
    exact congrArg (fun n => Host.Outcome.next { s with cnt := n }) hcnt
  | succ n ih =>
    intro s hr hs hp hk hk64 hacc hlen
    obtain ⟨b, rest, hq⟩ := List.exists_cons_of_length_pos (Nat.zero_lt_of_lt hlen)
    have hlt : s.cnt.toNat < 64 := by omega
    have hne : s.cnt ≠ s.kreg := fun hc => by rw [hc] at hk; omega
    have hstep : step s = .next (s.drawBit b) := step_need_quiet hr hs hp (needStep_draw hne hq hlt)
    have hcnt : (s.drawBit b).cnt.toNat = s.cnt.toNat + 1 := count_succ_toNat hlt
    have hor : (s.drawBit b).acc = orBit s.acc s.cnt.toNat b := writeBit_eq_orBit _ _ _ hacc
    have hvalue : (s.drawBit b).acc.toNat + 2 ^ (s.drawBit b).cnt.toNat * bitsValue (rest.take n) =
        s.acc.toNat + 2 ^ s.cnt.toNat * bitsValue (s.q.take (n + 1)) := by
      rw [hor, hcnt, orBit_toNat _ _ _ hlt hacc, hq, List.take_succ_cons, bitsValue, Nat.pow_succ]
      ring
    have hhead : s.head + BitVec.ofNat 6 (n + 1) = s.head + 1 + BitVec.ofNat 6 n := by
      rw [Nat.add_comm n 1, BitVec.ofNat_add, ← BitVec.add_assoc]; rfl
    have hrest : (s.drawBit b).q = rest := by rw [State.drawBit_q, hq, List.tail_cons]
    rw [runSteps_succ hstep, ih (s.drawBit b) hr hs hp (by rw [hcnt, State.drawBit_kreg]; omega) hk64
      (by rw [hcnt, hor]; exact orBit_lt _ _ _ hacc) (by rw [hrest]; rw [hq] at hlen; exact Nat.le_of_succ_le_succ hlen),
      hrest, hvalue, hhead, hq, List.drop_succ_cons]
    rfl

/-! ### A pack from its first bit to `CHECK` -/

/-- A pack of `KREG` bits is to be drawn, and the host takes every beat. -/
def State.freshPack (s : State) : Prop :=
  s.attentive ∧ s.phase = .need ∧ s.cnt = 0 ∧ s.acc = 0 ∧ s.kreg.toNat ≤ 64

theorem State.freshPack.of_startPack (hs : s.attentive) {k : BitVec 7} (hk : k.toNat ≤ 64) : (s.startPack k).freshPack :=
  ⟨hs, rfl, rfl, rfl, hk⟩

/-- The block when a pack of `k` bits is complete: its value in `ACC`, `STATE` and `Q` as the command level leaves them. -/
def State.packDone (s : State) (k : Nat) (v : Word) (g : Gen) : State :=
  { s with state := g.state, q := g.q, head := s.head + BitVec.ofNat 6 k, acc := v, cnt := s.kreg, phase := .check }

theorem run_freshPack (hs : s.freshPack) (hk : s.kreg.toNat = k) (h : packBits hw fuel k s.gen = some (v, g)) :
    ∃ n, runSteps n s = .next (s.packDone k v g) ∧ (k ≤ s.q.length → n = k + 1) := by
  obtain ⟨⟨hr, -, hscript⟩, hp, hcnt, hacc, hk64⟩ := hs
  have hcnt0 : s.cnt.toNat = 0 := by simp [hcnt]
  have hacc0 : s.acc.toNat = 0 := by simp [hacc]
  by_cases hlen : k ≤ s.q.length
  · have hdraws := run_draws k s hr hscript hp (by omega) hk64 (by simp [hcnt0, hacc0]) hlen
    rw [hacc0, hcnt0, Nat.pow_zero, Nat.zero_add, Nat.one_mul] at hdraws
    rw [State.gen, packBits_of_le (hk ▸ hk64) hlen] at h
    cases h
    refine ⟨k + 1, ?_, fun _ => rfl⟩
    rw [runSteps_add hdraws]
    exact runSteps_one (step_need_quiet hr hscript hp (needStep_check rfl))
  · obtain ⟨n, hn⟩ := run_pack fuel k s v g hr hscript hp (by omega) hk64 (by simp [hcnt0, hacc0])
      (by rw [hcnt0, hacc]; exact h)
    exact ⟨n, hn, fun hle => absurd hle hlen⟩

/-! ### From `CHECK` on -/

/-- The last beat of a command, offered at `CHECK` and taken at once. -/
theorem run_check_last {t : State} (hs : s.attentive) (hp : s.phase = .check) (ht : t.attentive)
    (hcheck : checkStep s = .next (t.offerReply .okLast v)) :
    runSteps 2 s = .next (t.offerReply .okLast v).transfer.endCommand := by
  obtain ⟨hr, -, -⟩ := hs
  obtain ⟨htr, hready, hscript⟩ := ht
  have hoffer : step s = .next (t.offerReply .okLast v) := step_check_quiet hr hscript hp hcheck
  rw [runSteps_succ hoffer]
  exact run_last (s := t.offerReply .okLast v) htr hscript hready rfl (by simp)

/-- A beat that is not the last, offered at `CHECK` and taken at once: the next pack of the same width is to be drawn. -/
theorem run_check_more {t : State} (hs : s.attentive) (hp : s.phase = .check) (ht : t.attentive)
    (hcheck : checkStep s = .next (t.offerReply .okMore v)) :
    runSteps 2 s = .next (t.offerReply .okMore v).transfer.restartPack := by
  obtain ⟨hr, -, -⟩ := hs
  obtain ⟨htr, hready, hscript⟩ := ht
  have hoffer : step s = .next (t.offerReply .okMore v) := step_check_quiet hr hscript hp hcheck
  rw [runSteps_succ hoffer]
  exact runSteps_one (step_resp_quiet (s := t.offerReply .okMore v) htr hscript rfl (respStep_more hready rfl))

/-- The value `v` of a complete pack is the reply of the command in progress: a `BIT` or a `PACK`, or a `BOUNDED` that accepts it. -/
def State.replies (s : State) (v : Word) : Prop :=
  s.opr = 1 ∨ s.opr = 3 ∨ (s.opr = 4 ∧ acceptFlag v s.maxr = true)

theorem checkStep_of_replies (h : s.replies s.acc) : checkStep s = .next (s.offerReply .okLast s.acc) := by
  rcases h with ho | ho | ⟨ho, haccept⟩
  · exact checkStep_pack (.inl ho)
  · exact checkStep_pack (.inr ho)
  · exact checkStep_accept ho haccept

/-- A pack whose value is the reply, from its first bit to `IDLE`. -/
theorem run_pack_reply (hs : s.freshPack) (hk : s.kreg.toNat = k) (h : packBits hw fuel k s.gen = some (v, g))
    (hreply : s.replies v) :
    ∃ n, runSteps n s = .next ((s.packDone k v g).offerReply .okLast v).transfer.endCommand ∧ (k ≤ s.q.length → n = k + 3) := by
  obtain ⟨n, hn, hcount⟩ := run_freshPack hs hk h
  obtain ⟨hattentive, -⟩ := hs
  refine ⟨n + 2, ?_, fun hle => by rw [hcount hle]⟩
  rw [runSteps_add hn]
  exact run_check_last (s := s.packDone k v g) hattentive rfl hattentive (checkStep_of_replies hreply)

/-- A candidate that is rejected: its bits are gone and the next attempt is to be drawn (R145). -/
theorem run_pack_reject (hs : s.freshPack) (hk : s.kreg.toNat = k) (h : packBits hw fuel k s.gen = some (v, g)) (ho : s.opr = 4)
    (hreject : acceptFlag v s.maxr = false) :
    ∃ n, runSteps n s = .next (s.packDone k v g).restartPack ∧ (k ≤ s.q.length → n = k + 2) := by
  obtain ⟨n, hn, hcount⟩ := run_freshPack hs hk h
  obtain ⟨⟨hr, -, hscript⟩, -⟩ := hs
  refine ⟨n + 1, ?_, fun hle => by rw [hcount hle]⟩
  rw [runSteps_add hn]
  exact runSteps_one (step_check_quiet (s := s.packDone k v g) hr hscript rfl (checkStep_reject ho hreject))

end

/-! ### `BIT`, `PACK` and `BOUNDED` with their bits in `Q` -/

theorem State.with_idle_eq {s : State} (hp : s.phase = .idle) : { s with phase := .idle } = s := by rw [← hp]

/-- Settles O35: the pack of one bit is that bit. -/
theorem bitCompletes : Obligations.BitCompletes := by
  intro s a b rest hs hp hq
  refine ⟨_, rfl, ?_⟩
  have hfresh : ({ s with opr := 1 }.startPack 1).freshPack := .of_startPack hs (by simp)
  have hpack : packBits hw 0 1 s.gen = some (bitWord b, ⟨s.state, rest⟩) := by
    rw [State.gen, hq, packBits_one, nextBit_cons, Option.map_some]
  obtain ⟨n, hn, hsteps⟩ := run_pack_reply hfresh rfl hpack (.inl rfl)
  obtain rfl : n = 4 := hsteps (by simp [hq])
  rw [hn, ← State.with_idle_eq hp]
  rfl

/-- Settles O37: the pack is drawn from `Q` and its value is the reply. -/
theorem packCompletes : Obligations.PackCompletes := by
  intro s k hs hp hk hlen v
  refine ⟨_, exec_pack_in_range hk s, ?_⟩
  have hcount := packCount_toNat hk
  have hfresh : ({ s with opr := 3 }.startPack (packCount k)).freshPack := .of_startPack hs (hcount.trans_le hk)
  obtain ⟨n, hn, hsteps⟩ := run_pack_reply (fuel := 0) hfresh hcount (packBits_of_le hk hlen) (.inr (.inl rfl))
  obtain rfl : n = k.toNat + 3 := hsteps hlen
  rw [hn, ← State.with_idle_eq hp, packCount_eq_ofNat]
  rfl

/-- Settles O38: the first attempt is a pack drawn from `Q`; the comparison with `max` decides what follows it. -/
theorem boundedCompletesOrRetries : Obligations.BoundedCompletesOrRetries := by
  intro s max hs hp hmax hlen k v
  have hwidth : (boundedWidth max).toNat = k := boundedWidth_toNat (Nat.one_le_of_lt hmax)
  have hfresh : ({ s with opr := 4, maxr := max }.startPack (boundedWidth max)).freshPack :=
    .of_startPack hs (boundedWidth_le_64 hmax)
  have hpack : packBits hw 0 k s.gen = some (v, ⟨s.state, s.q.drop k⟩) :=
    packBits_of_le (bitlen_le_64 (Nat.one_le_of_lt hmax)) hlen
  refine ⟨_, exec_bounded_of_two_le hmax s, fun haccept => ?_, fun hreject => ?_⟩
  · obtain ⟨n, hn, hsteps⟩ := run_pack_reply hfresh hwidth hpack (.inr (.inr ⟨rfl, decide_eq_true haccept⟩))
    obtain rfl : n = k + 3 := hsteps hlen
    rw [hn, ← State.with_idle_eq hp]
    rfl
  · obtain ⟨n, hn, hsteps⟩ := run_pack_reject hfresh hwidth hpack rfl (decide_eq_false (Nat.not_lt.mpr hreject))
    obtain rfl : n = k + 2 := hsteps hlen
    rw [hn]
    rfl

/-- The one beat of a degenerate operand, offered at acceptance and taken at once. -/
theorem run_offer_last {s : State} (hs : s.attentive) {status : Status} (hlast : status ≠ .okMore) (v : Word) :
    runSteps 1 (s.offerReply status v) = .next (s.offerReply status v).transfer.endCommand := by
  obtain ⟨hr, hready, hscript⟩ := hs
  exact run_last (s := s.offerReply status v) hr hscript hready rfl hlast

/-- Settles O39: the beat of the degenerate range is taken at once. -/
theorem degenerateBoundedCompletes : Obligations.DegenerateBoundedCompletes := by
  intro s max hs hp hmax
  refine ⟨_, exec_bounded_degenerate hmax s, ?_⟩
  rw [run_offer_last (s := { s with opr := 4 }) hs (by simp) 0, ← State.with_idle_eq hp]
  rfl

end Sys2Proof.Machine
end

section
/-!
`BITS` bit by bit (41_whitener.md R107, 44_sequencer.md R145, R146): between two beats the block stands at the start of a pack of one bit,
and the beats sent so far are those of the bits taken so far.
-/

namespace Sys2Proof.Machine

theorem bitsBeats_append_singleton (bs : List Bit) (b : Bit) :
    bitsBeats (bs ++ [b]) = bs.map (fun b => ⟨.okMore, bitWord b⟩) ++ [⟨.okLast, bitWord b⟩] := by
  induction bs using bitsBeats.induct with
  | case1 => rfl
  | case2 b' => rfl
  | case3 b' b'' rest ih => exact congrArg (List.cons (Beat.mk .okMore (bitWord b'))) ih

/-- A `BITS` is about to draw its next bit. -/
def State.wantsBit (s : State) : Prop := s.freshPack ∧ s.opr = 2 ∧ s.kreg = 1

section

variable {s u : State} {fuel : Nat} {b : Bit} {g g' : Gen} {bs : List Bit}

theorem takeBits_succ_eq_some {c : Config} {n : Nat} (h : takeBits c fuel (n + 1) g = some (bs, g')) :
    ∃ (b : Bit) (bs₁ : List Bit) (g₁ : Gen), nextBit c fuel g = some (b, g₁) ∧ takeBits c fuel n g₁ = some (bs₁, g') ∧
      bs = b :: bs₁ := by
  rw [takeBits] at h
  split at h
  · cases h
  · next b g₁ hfirst =>
    split at h
    · cases h
    · next bs₁ g₂ hrest => cases h; exact ⟨b, bs₁, g₁, hfirst, hrest, rfl⟩

/-- One bit of a `BITS`, with the one beat that carries it: the status is by `REM` after the decrement (R145). -/
theorem run_bits_check (hs : s.wantsBit) (hrem : s.rem ≠ 0) (h : nextBit hw fuel s.gen = some (b, g)) :
    ∃ n, runSteps n s = .next (s.packDone 1 (bitWord b) g) ∧ (s.q ≠ [] → n = 2) ∧
      checkStep (s.packDone 1 (bitWord b) g) = .next (({ s.packDone 1 (bitWord b) g with rem := s.rem - 1 } : State).offerReply
        (if s.rem - 1 = 0 then .okLast else .okMore) (bitWord b)) := by
  obtain ⟨hfresh, ho, hk⟩ := hs
  have hpack : packBits hw fuel 1 s.gen = some (bitWord b, g) := by rw [packBits_one, h, Option.map_some]
  obtain ⟨n, hn, hcount⟩ := run_freshPack hfresh (by rw [hk]; rfl) hpack
  exact ⟨n, hn, fun hq => hcount (List.length_pos_iff.mpr hq), checkStep_bits (s := s.packDone 1 (bitWord b) g) ho hrem⟩

/-- The block after a bit that is not the last: its beat is sent and the next bit is wanted. -/
def State.afterBit (s : State) (b : Bit) (g : Gen) : State :=
  (({ s.packDone 1 (bitWord b) g with rem := s.rem - 1 } : State).offerReply .okMore (bitWord b)).transfer.restartPack

theorem State.afterBit_wantsBit (hs : s.wantsBit) : (s.afterBit b g).wantsBit := by
  obtain ⟨⟨hattentive, -, -, -, hk64⟩, ho, hk⟩ := hs
  exact ⟨⟨hattentive, rfl, rfl, rfl, hk64⟩, ho, hk⟩

theorem run_bits_more (hs : s.wantsBit) (hrem : 1 < s.rem.toNat) (h : nextBit hw fuel s.gen = some (b, g)) :
    ∃ n, runSteps n s = .next (s.afterBit b g) ∧ (s.q ≠ [] → n = 4) := by
  obtain ⟨n, hn, hcount, hcheck⟩ := run_bits_check hs (by bv_omega) h
  obtain ⟨⟨hattentive, -⟩, -⟩ := hs
  have hmore : s.rem - 1 ≠ 0 := by bv_omega
  rw [if_neg hmore] at hcheck
  refine ⟨n + 2, ?_, fun hq => by rw [hcount hq]⟩
  rw [runSteps_add hn]
  exact run_check_more (s := s.packDone 1 (bitWord b) g) hattentive rfl hattentive hcheck

/-- The block after the last bit of a `BITS`. -/
def State.afterLastBit (s : State) (b : Bit) (g : Gen) : State :=
  (({ s.packDone 1 (bitWord b) g with rem := s.rem - 1 } : State).offerReply .okLast (bitWord b)).transfer.endCommand

theorem run_bits_last (hs : s.wantsBit) (hrem : s.rem.toNat = 1) (h : nextBit hw fuel s.gen = some (b, g)) :
    ∃ n, runSteps n s = .next (s.afterLastBit b g) ∧ (s.q ≠ [] → n = 4) := by
  obtain ⟨n, hn, hcount, hcheck⟩ := run_bits_check hs (by bv_omega) h
  obtain ⟨⟨hattentive, -⟩, -⟩ := hs
  have hlast : s.rem - 1 = 0 := by bv_omega
  rw [if_pos hlast] at hcheck
  refine ⟨n + 2, ?_, fun hq => by rw [hcount hq]⟩
  rw [runSteps_add hn]
  exact run_check_last (s := s.packDone 1 (bitWord b) g) hattentive rfl hattentive hcheck

/-! ### The first bits of a `BITS` -/

/-- From `s` to `u` a `BITS` has delivered the bits `bs` and still owes others. -/
structure BitsDelivered (bs : List Bit) (s u : State) : Prop where
  wants : u.wantsBit
  sent : u.sent = s.sent ++ bs.map (fun b => ⟨.okMore, bitWord b⟩)
  head : u.head = s.head + BitVec.ofNat 6 bs.length
  rem : u.rem.toNat + bs.length = s.rem.toNat
  maxr : u.maxr = s.maxr

theorem BitsDelivered.nil (hs : s.wantsBit) : BitsDelivered [] s s :=
  ⟨hs, by simp, by simp, rfl, rfl⟩

theorem BitsDelivered.cons (hrem : 1 ≤ s.rem.toNat) (h : BitsDelivered bs (s.afterBit b g) u) : BitsDelivered (b :: bs) s u where
  wants := h.wants
  sent := by rw [h.sent]; exact List.append_assoc s.sent [_] _
  head := by
    rw [h.head, List.length_cons, Nat.add_comm bs.length 1, BitVec.ofNat_add, ← BitVec.add_assoc]
    rfl
  rem := by
    have hone : (s.rem - 1).toNat = s.rem.toNat - 1 := BitVec.toNat_sub_of_le (BitVec.le_def.mpr hrem)
    have := h.rem
    have hafter : (s.afterBit b g).rem = s.rem - 1 := rfl
    rw [hafter, hone] at this
    rw [List.length_cons]
    omega
  maxr := h.maxr

theorem run_bits_front (j : Nat) : ∀ (s : State) (bs : List Bit), s.wantsBit → j < s.rem.toNat →
    takeBits hw fuel j s.gen = some (bs, g') →
    ∃ (n : Nat) (u : State), runSteps n s = .next u ∧ BitsDelivered bs s u ∧ u.gen = g' ∧ (j ≤ s.q.length → n = 4 * j) := by
  induction j with
  | zero =>
    intro s bs hs _ h
    cases h
    exact ⟨0, s, rfl, .nil hs, rfl, fun _ => rfl⟩
  | succ j ih =>
    intro s bs hs hrem h
    obtain ⟨b, bs₁, g₁, hfirst, hrest, rfl⟩ := takeBits_succ_eq_some h
    obtain ⟨n₁, hn₁, hcount₁⟩ := run_bits_more hs (by omega) hfirst
    have hrem₁ : (s.afterBit b g₁).rem.toNat = s.rem.toNat - 1 :=
      BitVec.toNat_sub_of_le (BitVec.le_def.mpr (Nat.one_le_of_lt hrem))
    obtain ⟨n, u, hn, hdelivered, hgen, hcount⟩ := ih (s.afterBit b g₁) bs₁ (State.afterBit_wantsBit hs) (by omega) hrest
    refine ⟨n₁ + n, u, by rw [runSteps_add hn₁, hn], .cons (by omega) hdelivered, hgen, fun hlen => ?_⟩
    obtain ⟨b', q', hq⟩ := List.exists_cons_of_length_pos (Nat.zero_lt_of_lt hlen)
    rw [State.gen, hq, nextBit_cons] at hfirst
    cases hfirst
    have hlen₁ : j ≤ q'.length := by rw [hq] at hlen; exact Nat.le_of_succ_le_succ hlen
    rw [hcount₁ (by simp [hq]), hcount hlen₁]
    ring

/-! ### A `BITS` to its end -/

/-- From `s` to `u` a `BITS` has delivered the bits `bs`, which are all it owed. -/
structure BitsCompleted (bs : List Bit) (s u : State) : Prop where
  idle : u.phase = .idle
  sent : u.sent = s.sent ++ bitsBeats bs
  head : u.head = s.head + BitVec.ofNat 6 bs.length
  rem : u.rem = 0
  maxr : u.maxr = s.maxr

theorem BitsDelivered.last (h : BitsDelivered bs s u) (hrem : u.rem.toNat = 1) :
    BitsCompleted (bs ++ [b]) s (u.afterLastBit b g) where
  idle := rfl
  sent := by
    rw [bitsBeats_append_singleton, ← List.append_assoc, ← h.sent]
    rfl
  head := by
    rw [List.length_append, List.length_singleton, BitVec.ofNat_add, ← BitVec.add_assoc, ← h.head]
    rfl
  rem := show u.rem - 1 = 0 by bv_omega
  maxr := h.maxr

theorem run_bits_all {n : Nat} (hs : s.wantsBit) (hrem : s.rem.toNat = n + 1)
    (h : takeBits hw fuel (n + 1) s.gen = some (bs, g')) :
    ∃ (m : Nat) (u : State), runSteps m s = .next u ∧ BitsCompleted bs s u ∧ u.gen = g' ∧
      (n + 1 ≤ s.q.length → m = 4 * (n + 1)) := by
  rw [takeBits_add, Option.bind_eq_some_iff] at h
  obtain ⟨⟨bs₁, g₁⟩, hfront, h⟩ := h
  obtain ⟨⟨bs₂, g₂⟩, hlast, h⟩ := Option.map_eq_some_iff.mp h
  obtain ⟨b, bs₃, g₃, hbit, hnil, rfl⟩ := takeBits_succ_eq_some hlast
  cases hnil
  cases h
  obtain ⟨hlen₁, -⟩ := takeBits_spec hw fuel n _ _ _ hfront
  obtain ⟨m₁, u, hm₁, hdelivered, hgen, hcount₁⟩ := run_bits_front n s bs₁ hs (by omega) hfront
  have hone : u.rem.toNat = 1 := by have := hdelivered.rem; omega
  rw [← hgen] at hbit
  obtain ⟨m₂, hm₂, hcount₂⟩ := run_bits_last hdelivered.wants hone hbit
  refine ⟨m₁ + m₂, _, by rw [runSteps_add hm₁, hm₂], hdelivered.last hone, rfl, fun hlen => ?_⟩
  have hq : u.q ≠ [] := by
    rw [State.gen, takeBits_of_le (Nat.le_of_succ_le hlen)] at hfront
    cases hfront
    have hdrop : u.q = s.q.drop n := congrArg Gen.q hgen
    rw [hdrop, Ne, List.drop_eq_nil_iff, Nat.not_le]
    exact hlen
  rw [hcount₁ (Nat.le_of_succ_le hlen), hcount₂ hq]
  ring

end

/-- Acceptance of a `BITS` that owes bits leads to the start of its first pack. -/
theorem State.wantsBit_of_accepted {s : State} (hs : s.attentive) (n : Word) :
    ({ s with opr := 2, rem := n }.startPack 1).wantsBit :=
  ⟨.of_startPack hs (by simp), rfl, rfl⟩

/-- Settles O36: the bits are taken from `Q` alone, four steps each. -/
theorem bitsCompletes : Obligations.BitsCompletes := by
  refine fun s n hs hp hlen => ⟨fun hn => ?empty, fun hn => ?bits⟩
  case empty =>
    subst hn
    refine ⟨_, exec_bits_zero s, ?_⟩
    rw [run_offer_last (s := { s with opr := 2, rem := 0 }) hs (by simp) 0, ← State.with_idle_eq hp]
    rfl
  case bits =>
    refine ⟨_, exec_bits_of_ne_zero hn s, ?_⟩
    obtain ⟨k, hk⟩ : ∃ k, n.toNat = k + 1 := Nat.exists_eq_succ_of_ne_zero (BitVec.toNat_ne_iff_ne.mpr hn)
    rw [hk] at hlen ⊢
    obtain ⟨m, u, hm, hdone, hgen, hcount⟩ :=
      run_bits_all (fuel := 0) (State.wantsBit_of_accepted hs n) hk (takeBits_of_le hlen)
    obtain rfl : m = 4 * (k + 1) := hcount hlen
    have hstate : u.state = s.state := congrArg Gen.state hgen
    have hq : u.q = s.q.drop (k + 1) := congrArg Gen.q hgen
    have hhead : u.head = s.head + BitVec.ofNat 6 (s.q.take (k + 1)).length := hdone.head
    rw [List.length_take_of_le hlen] at hhead
    exact ⟨u, hm, hdone.idle, hdone.sent, hq, hstate, hhead, hdone.rem, hdone.maxr⟩

/-- Settles O43: the first bits of a `BITS` are delivered before it needs the next one. -/
theorem bitsDeliversEachBit : Obligations.BitsDeliversEachBit := by
  intro s n fuel j bs g' hs hp hj h
  have hn : n ≠ 0 := fun h0 => by simp [h0] at hj
  refine ⟨_, exec_bits_of_ne_zero hn s, ?_⟩
  obtain ⟨m, u, hm, hdelivered, hgen, -⟩ := run_bits_front j _ bs (State.wantsBit_of_accepted hs n) hj h
  exact ⟨m, u, hm, hdelivered.sent, hgen⟩

end Sys2Proof.Machine
end

section
/-!
A command whose command-level rule ends is run by the machine to the same beats, `STATE` and `Q` (44_sequencer.md R149, part (a)).
-/

namespace Sys2Proof.Machine

/-- From `s` the machine reaches `IDLE` having sent `beats` more, with the architectural state `g'`. -/
def State.runsTo (s : State) (beats : List Beat) (g' : Gen) : Prop :=
  ∃ (n : Nat) (u : State), runSteps n s = .next u ∧ u.phase = .idle ∧ u.gen = g' ∧ u.sent = s.sent ++ beats

section

variable {s : State} {fuel k : Nat} {v : Word} {g' : Gen}

theorem State.runsTo.of_run {m : Nat} {t : State} {beats : List Beat} (hm : runSteps m s = .next t) (hsent : t.sent = s.sent)
    (h : t.runsTo beats g') : s.runsTo beats g' := by
  obtain ⟨n, u, hn, hp, hgen, hsent'⟩ := h
  exact ⟨m + n, u, by rw [runSteps_add hm, hn], hp, hgen, by rw [hsent', hsent]⟩

theorem runsTo_of_offer (hs : s.attentive) {status : Status} (hlast : status ≠ .okMore) :
    (s.offerReply status v).runsTo [⟨status, v⟩] s.gen :=
  ⟨1, _, run_offer_last hs hlast v, rfl, rfl, rfl⟩

theorem runsTo_of_pack (hs : s.freshPack) (hk : s.kreg.toNat = k) (h : packBits hw fuel k s.gen = some (v, g'))
    (hreply : s.replies v) : s.runsTo [⟨.okLast, v⟩] g' := by
  obtain ⟨n, hn, -⟩ := run_pack_reply hs hk h hreply
  exact ⟨n, _, hn, rfl, rfl, rfl⟩

theorem runsTo_of_bits {n : Word} {beats : List Beat} (hs : s.wantsBit) (hrem : s.rem = n) (hn : n ≠ 0)
    (h : refBits hw fuel n s.gen = some (beats, g')) : s.runsTo beats g' := by
  obtain ⟨bs, hbs, rfl⟩ := refBits_eq_some hn h
  obtain ⟨k, hk⟩ : ∃ k, n.toNat = k + 1 := Nat.exists_eq_succ_of_ne_zero (BitVec.toNat_ne_iff_ne.mpr hn)
  rw [hk] at hbs
  obtain ⟨m, u, hm, hdone, hgen, -⟩ := run_bits_all hs (hrem ▸ hk) hbs
  exact ⟨m, u, hm, hdone.idle, hgen, hdone.sent⟩

/-- A rejection loop that ends: each attempt is one pack, and a rejected one leads to the next (R128). -/
theorem runsTo_of_sampleLoop (attempts : Nat) : ∀ s : State, s.freshPack → s.opr = 4 → s.kreg.toNat = k →
    sampleLoop hw fuel k s.maxr attempts s.gen = some (v, g') → s.runsTo [⟨.okLast, v⟩] g' := by
  induction attempts with
  | zero => intro s _ _ _ h; cases h
  | succ attempts ih =>
    intro s hs ho hk h
    rw [sampleLoop] at h
    split at h
    · cases h
    · next c g₁ hpack =>
      split at h
      · next haccept => cases h; exact runsTo_of_pack hs hk hpack (.inr (.inr ⟨ho, haccept⟩))
      · next hreject =>
        obtain ⟨n, hn, -⟩ := run_pack_reject hs hk hpack ho (Bool.eq_false_iff.mpr hreject)
        obtain ⟨hattentive, -, -, -, hk64⟩ := hs
        exact .of_run hn rfl (ih (s.packDone k c g₁).restartPack ⟨hattentive, rfl, rfl, rfl, hk64⟩ ho hk h)

theorem runsTo_of_bounded {max : Word} (hs : s.freshPack) (ho : s.opr = 4) (hk : s.kreg.toNat = bitlen max) (hmax : s.maxr = max)
    (htwo : 2 ≤ max.toNat) (h : sample hw fuel max s.gen = some (v, g')) : s.runsTo [⟨.okLast, v⟩] g' := by
  subst hmax
  rw [sample_eq_sampleLoop htwo] at h
  exact runsTo_of_sampleLoop fuel s hs ho hk h

end

/-- Settles O41: by where the acceptance leads; a pack, the bits of a `BITS` and a rejection loop each run as their command-level loop. -/
theorem commandRefinesReference : Obligations.CommandRefinesReference := by
  intro i fuel s beats g' hs hp h
  obtain ⟨t, ht⟩ := exec_next i s
  refine ⟨t, ht, ?_⟩
  obtain ⟨-, -, -, -, -, -, -, -, -, hsent, -⟩ := exec_frame ht
  rw [← hsent]
  cases accepted_of_exec ht with
  | bit a =>
    rw [runCommand, ← refPack_one (by decide)] at h
    obtain ⟨hlarge, -⟩ | ⟨-, v, hpack, rfl⟩ := refPack_reply h
    · exact absurd hlarge (by decide)
    · exact runsTo_of_pack (.of_startPack hs (by simp)) rfl hpack (.inl rfl)
  | bits hn => exact runsTo_of_bits (State.wantsBit_of_accepted hs _) rfl hn h
  | pack hk =>
    obtain ⟨hlarge, -⟩ | ⟨-, v, hpack, rfl⟩ := refPack_reply h
    · exact absurd hk (Nat.not_le.mpr hlarge)
    · exact runsTo_of_pack (.of_startPack hs ((packCount_toNat hk).trans_le hk)) (packCount_toNat hk) hpack (.inr (.inl rfl))
  | bounded hmax =>
    obtain ⟨v, hsample, rfl⟩ := refBounded_reply h
    exact runsTo_of_bounded (.of_startPack hs (boundedWidth_le_64 hmax)) rfl (boundedWidth_toNat (Nat.one_le_of_lt hmax)) rfl hmax
      hsample
  | empty =>
    cases h
    exact runsTo_of_offer (s := { s with opr := 2, rem := 0 }) hs (by simp)
  | degenerate hmax =>
    rw [runCommand, refBounded_degenerate hmax] at h
    cases h
    exact runsTo_of_offer (s := { s with opr := 4 }) hs (by simp)
  | refused o hcode href =>
    rw [href] at h
    cases h
    exact runsTo_of_offer (s := { s with opr := o }) hs (by simp)

end Sys2Proof.Machine
end

section
/-!
What a command in progress still has to do, at command level (44_sequencer.md R149, part (b), R150). `State.rest` reads it off the
registers; a step of the block removes from it exactly the beats it sends. So a run that reaches `IDLE` has carried out what was left, and
a command that never ends at command level never reaches `IDLE`. Results hold for all large enough fuel, so that they compose.
-/

namespace Sys2Proof.Machine

open Filter

/-! ### The rest of a command -/

/-- What is left when the pack in progress has the value `v`: the reply of `CHECK`, and the loop it goes on with (R145). -/
def State.checkRest (fuel : Nat) (s : State) (v : Word) (g : Gen) : Option (List Beat × Gen) :=
  if s.opr = 2 then
    (bitsLoop hw fuel (s.rem - 1).toNat g).map (fun r => (⟨if s.rem - 1 = 0 then .okLast else .okMore, v⟩ :: r.1, r.2))
  else if s.opr = 4 ∧ acceptFlag v s.maxr = false then
    (sampleLoop hw fuel s.kreg.toNat s.maxr fuel g).map lastBeat
  else some (lastBeat (v, g))

/-- What is left while a pack is drawn: its remaining bits, then `CHECK` (R143). -/
def State.packRest (fuel : Nat) (s : State) (g : Gen) : Option (List Beat × Gen) :=
  (packLoop hw fuel (s.kreg.toNat - s.cnt.toNat) s.cnt.toNat s.acc g).bind (fun r => s.checkRest fuel r.1 r.2)

/-- What the command in progress still has to do: its beats to come and the architectural state after it. -/
def State.rest (fuel : Nat) (s : State) : Option (List Beat × Gen) :=
  match s.phase with
  | .idle => some ([], s.gen)
  | .need => s.packRest fuel s.gen
  | .fill => (refill hw fuel s.gen).bind (s.packRest fuel)
  | .check => s.checkRest fuel s.acc s.gen
  | .resp =>
    if s.rsp.status = .okMore then (bitsLoop hw fuel s.rem.toNat s.gen).map (fun r => (s.rsp :: r.1, r.2))
    else some ([s.rsp], s.gen)

/-- The command in progress ends with these beats to come and this architectural state. -/
def State.ends (s : State) (beats : List Beat) (g : Gen) : Prop := ∀ᶠ fuel in atTop, s.rest fuel = some (beats, g)

/-! ### The rest, by phase -/

section

variable {s : State} {fuel : Nat} {v : Word} {g : Gen}

theorem rest_idle (hp : s.phase = .idle) : s.rest fuel = some ([], s.gen) := by simp only [State.rest, hp]

theorem rest_need (hp : s.phase = .need) : s.rest fuel = s.packRest fuel s.gen := by simp only [State.rest, hp]

theorem rest_fill (hp : s.phase = .fill) : s.rest fuel = (refill hw fuel s.gen).bind (s.packRest fuel) := by
  simp only [State.rest, hp]

theorem rest_check (hp : s.phase = .check) : s.rest fuel = s.checkRest fuel s.acc s.gen := by simp only [State.rest, hp]

theorem rest_resp_last (hp : s.phase = .resp) (hlast : s.rsp.status ≠ .okMore) : s.rest fuel = some ([s.rsp], s.gen) := by
  simp only [State.rest, hp, if_neg hlast]

theorem rest_resp_more (hp : s.phase = .resp) (hmore : s.rsp.status = .okMore) :
    s.rest fuel = (bitsLoop hw fuel s.rem.toNat s.gen).map (fun r => (s.rsp :: r.1, r.2)) := by
  simp only [State.rest, hp, if_pos hmore]

theorem checkRest_bits (ho : s.opr = 2) : s.checkRest fuel v g =
    (bitsLoop hw fuel (s.rem - 1).toNat g).map (fun r => (⟨if s.rem - 1 = 0 then .okLast else .okMore, v⟩ :: r.1, r.2)) :=
  if_pos ho

theorem checkRest_reject (ho : s.opr = 4) (hreject : acceptFlag v s.maxr = false) :
    s.checkRest fuel v g = (sampleLoop hw fuel s.kreg.toNat s.maxr fuel g).map lastBeat := by
  rw [State.checkRest, if_neg (by simp [ho]), if_pos ⟨ho, hreject⟩]

theorem checkRest_reply (hreply : s.replies v) : s.checkRest fuel v g = some (lastBeat (v, g)) := by
  rw [State.checkRest]
  rcases hreply with ho | ho | ⟨ho, haccept⟩
  · simp [ho]
  · simp [ho]
  · simp [ho, haccept]

/-- `STATE`, `Q` and the working registers are all that the rest depends on. -/
theorem rest_eq_of_sameBlock {t : State} (h : s.sameBlock t) : s.rest fuel = t.rest fuel := by
  obtain ⟨hstate, hq, -, hphase, hopr, hkreg, hcnt, hacc, hmaxr, hrem, hrsp⟩ := h
  have hgen : s.gen = t.gen := by rw [State.gen, State.gen, hstate, hq]
  have hcheck (v : Word) (g : Gen) : s.checkRest fuel v g = t.checkRest fuel v g := by
    rw [State.checkRest, State.checkRest, hopr, hkreg, hmaxr, hrem]
  have hpack (g : Gen) : s.packRest fuel g = t.packRest fuel g := by
    simp only [State.packRest, hcheck, hkreg, hcnt, hacc]
  simp only [State.rest, hphase, hgen, funext hpack, hcheck, hacc, hrsp, hrem]

end

/-! ### The loops at command level -/

section

variable {c : Config} {fuel n j : Nat} {r : Word} {g : Gen}

theorem packLoop_cons (b : Bit) (x : Word) (rest : List Bit) :
    packLoop c fuel (n + 1) j r ⟨x, b :: rest⟩ = packLoop c fuel n (j + 1) (orBit r j b) ⟨x, rest⟩ := rfl

/-- A pack that needs a bit and finds `Q` empty refills first (R100). -/
theorem packLoop_refill (hthresh : 0 < c.thresh) (hn : n ≠ 0) {x : Word} :
    packLoop c fuel n j r ⟨x, []⟩ = (refill c fuel ⟨x, []⟩).bind (packLoop c fuel n j r) := by
  obtain ⟨n, rfl⟩ := Nat.exists_eq_succ_of_ne_zero hn
  rw [packLoop, nextBit_nil]
  cases hrefill : refill c fuel ⟨x, []⟩ with
  | none => rfl
  | some g₁ =>
    obtain ⟨b, q, hq⟩ := List.exists_cons_of_length_pos (hthresh.trans_le (refill_length_ge hrefill))
    obtain ⟨y, q₁⟩ := g₁
    subst hq
    rfl

theorem bitsLoop_succ : bitsLoop c fuel (n + 1) g =
    (nextBit c fuel g).bind (fun p => (bitsLoop c fuel n p.2).map
      (fun r => (⟨if n = 0 then .okLast else .okMore, bitWord p.1⟩ :: r.1, r.2))) := by
  rw [bitsLoop]
  cases nextBit c fuel g with
  | none => rfl
  | some p =>
    simp only [Option.bind_some]
    cases bitsLoop c fuel n p.2 <;> rfl

theorem sampleLoop_succ {width attempts : Nat} {max : Word} : sampleLoop c fuel width max (attempts + 1) g =
    (packBits c fuel width g).bind
      (fun p => if acceptFlag p.1 max then some p else sampleLoop c fuel width max attempts p.2) := by
  rw [sampleLoop]
  cases packBits c fuel width g <;> rfl

end

/-! ### The rest of a fresh pack -/

section

variable {s : State} {fuel : Nat}

theorem packRest_fresh (hcnt : s.cnt = 0) (hacc : s.acc = 0) (g : Gen) :
    s.packRest fuel g = (packBits hw fuel s.kreg.toNat g).bind (fun r => s.checkRest fuel r.1 r.2) := by
  rw [State.packRest, hcnt, hacc]
  rfl

/-- A `BITS` that wants a bit has the loop of the bits it owes to go (R107). -/
theorem rest_of_bits (hp : s.phase = .need) (hcnt : s.cnt = 0) (hacc : s.acc = 0) (ho : s.opr = 2) (hk : s.kreg = 1)
    (hrem : s.rem ≠ 0) : s.rest fuel = bitsLoop hw fuel s.rem.toNat s.gen := by
  have hsucc : s.rem.toNat = (s.rem - 1).toNat + 1 := by bv_omega
  have hzero : (s.rem - 1).toNat = 0 ↔ s.rem - 1 = 0 := by bv_omega
  have hone : (1 : BitVec 7).toNat = 1 := rfl
  rw [rest_need hp, packRest_fresh hcnt hacc, hk, hone, packBits_one, hsucc, bitsLoop_succ]
  cases nextBit hw fuel s.gen with
  | none => rfl
  | some p => simp only [Option.map_some, Option.bind_some, checkRest_bits ho, hzero]

/-- A `BOUNDED` at the start of an attempt has the rejection loop to go (R128). The loop that the rest goes on with after a rejection
has its own attempts, so one more of them is enough for both. -/
theorem ends_sampleLoop {beats : List Beat} {g : Gen} (hp : s.phase = .need) (hcnt : s.cnt = 0) (hacc : s.acc = 0) (ho : s.opr = 4)
    (hk : s.kreg.toNat ≤ 64) (h : s.ends beats g) :
    ∀ᶠ fuel in atTop, (sampleLoop hw fuel s.kreg.toNat s.maxr fuel s.gen).map lastBeat = some (beats, g) := by
  rw [← map_add_atTop_eq_nat 1, eventually_map]
  filter_upwards [h, (tendsto_add_atTop_nat 1).eventually h] with fuel hrest hrest'
  rw [rest_need hp, packRest_fresh hcnt hacc] at hrest hrest'
  obtain ⟨⟨v, g₁⟩, hpack, hcheck⟩ := Option.bind_eq_some_iff.mp hrest
  obtain ⟨⟨v', g₁'⟩, hpack', -⟩ := Option.bind_eq_some_iff.mp hrest'
  have hsame : packBits hw (fuel + 1) s.kreg.toNat s.gen = some (v, g₁) := by
    rw [packBits_eq_takeBits hw _ _ _ hk] at hpack ⊢
    obtain ⟨p, htake, hp⟩ := Option.map_eq_some_iff.mp hpack
    rw [takeBits_mono (Nat.le_succ fuel) htake, Option.map_some, hp]
  rw [sampleLoop_succ, hsame, Option.bind_some]
  cases haccept : acceptFlag v s.maxr with
  | true =>
    rw [checkRest_reply (.inr (.inr ⟨ho, haccept⟩))] at hcheck
    rw [if_pos rfl]
    exact hcheck
  | false =>
    rw [checkRest_reject ho haccept, Option.map_eq_some_iff] at hcheck
    obtain ⟨p, hloop, hp⟩ := hcheck
    rw [if_neg Bool.false_ne_true, sampleLoop_mono (Nat.le_succ fuel) hk le_rfl hloop, Option.map_some, hp]

end

/-! ### A step of the block -/

section

variable {s t : State} {beats : List Beat} {g : Gen}

theorem State.ends.of_rest_eq (h : t.ends beats g) (heq : ∀ fuel, s.rest fuel = t.rest fuel) : s.ends beats g :=
  h.mono fun fuel hfuel => (heq fuel).trans hfuel

theorem needStep_ends (hp : s.phase = .need) (hpack : s.packInv) (h : needStep s = .next t) (ht : t.ends beats g) :
    s.ends beats g := by
  obtain ⟨hle, hk, hacc⟩ := hpack
  refine ht.of_rest_eq fun fuel => ?_
  rcases needStep_cases h with ⟨hc, rfl⟩ | ⟨hc, hq, rfl⟩ | ⟨hc, hlt, b, rest, hq, rfl⟩
  · rw [rest_need hp, State.packRest, hc, Nat.sub_self]
    rfl
  · have hne : s.cnt.toNat ≠ s.kreg.toNat := BitVec.toNat_ne_iff_ne.mpr hc
    rw [rest_need hp, rest_fill rfl, State.packRest, State.gen, hq, packLoop_refill (by decide) (by omega), Option.bind_assoc]
    rfl
  · have hne : s.cnt.toNat ≠ s.kreg.toNat := BitVec.toNat_ne_iff_ne.mpr hc
    have hcnt : (s.cnt + 1).toNat = s.cnt.toNat + 1 := count_succ_toNat hlt
    have hsub : s.kreg.toNat - s.cnt.toNat = (s.kreg.toNat - (s.cnt + 1).toNat) + 1 := by omega
    rw [rest_need hp, rest_need (s := s.drawBit b) hp, State.packRest, State.packRest, State.gen, hq, hsub, packLoop_cons,
      ← hcnt, ← writeBit_eq_orBit _ _ _ hacc, State.gen, State.drawBit_q, hq, List.tail_cons]
    rfl

theorem fillStep_ends (hp : s.phase = .fill) (h : fillStep hw s = .next t) (ht : t.ends beats g) : s.ends beats g := by
  rcases fillStep_cases h with ⟨hlow, rfl⟩ | ⟨hhigh, rfl⟩
  · rw [State.ends, ← map_add_atTop_eq_nat 1, eventually_map]
    filter_upwards [ht, (tendsto_add_atTop_nat 1).eventually ht] with fuel hrest hrest'
    rw [rest_fill (s := s.pull hw) hp] at hrest hrest'
    obtain ⟨g₁, hrefill, -⟩ := Option.bind_eq_some_iff.mp hrest
    rw [refill_mono (Nat.le_succ fuel) hrefill] at hrest'
    rw [rest_fill hp, refill_succ hlow]
    change (refill hw fuel (s.pull hw).gen).bind _ = _
    rw [hrefill]
    exact hrest'
  · refine ht.of_rest_eq fun fuel => ?_
    rw [rest_fill hp, refill_high hhigh]
    rfl

theorem checkStep_ends (hp : s.phase = .check) (hk : s.kreg.toNat ≤ 64) (h : checkStep s = .next t) (ht : t.ends beats g) :
    s.ends beats g := by
  have reply (hreply : s.replies s.acc) (ht : (s.offerReply .okLast s.acc).ends beats g) : s.ends beats g :=
    ht.of_rest_eq fun fuel => by rw [rest_check hp, checkRest_reply hreply]; rfl
  rcases checkStep_cases h with ⟨ho, rfl⟩ | ⟨ho, -, rfl⟩ | ⟨ho, haccept, rfl⟩ | ⟨ho, hreject, rfl⟩
  · exact reply (ho.imp_right .inl) ht
  · refine ht.of_rest_eq fun fuel => ?_
    rw [rest_check hp, checkRest_bits ho]
    by_cases hlast : s.rem - 1 = 0
    · rw [if_pos hlast, rest_resp_last rfl (by simp), hlast]
      rfl
    · rw [if_neg hlast, rest_resp_more rfl rfl]
      rfl
  · exact reply (.inr (.inr ⟨ho, haccept⟩)) ht
  · filter_upwards [ends_sampleLoop (s := s.restartPack) rfl rfl rfl ho hk ht] with fuel hloop
    rw [rest_check hp, checkRest_reject ho hreject]
    exact hloop

/-- A beat taken is the first of the beats that were to come. -/
theorem respStep_ends (hp : s.phase = .resp) (hreply : s.replyInv) (h : respStep s = .next t) (ht : t.ends beats g) :
    ∃ new, t.sent = s.sent ++ new ∧ s.ends (new ++ beats) g := by
  rcases respStep_cases h with ⟨-, rfl⟩ | ⟨-, hmore, rfl⟩ | ⟨-, hlast, rfl⟩
  · exact ⟨[], (List.append_nil _).symm, ht⟩
  · obtain ⟨hpending, -⟩ := hreply hp
    obtain ⟨ho, hk, hrem, -⟩ := hpending hmore
    refine ⟨[s.rsp], rfl, ht.mono fun fuel hfuel => ?_⟩
    rw [rest_of_bits (s := s.transfer.restartPack) rfl rfl rfl ho hk hrem] at hfuel
    have hbits : bitsLoop hw fuel s.rem.toNat s.gen = some (beats, g) := hfuel
    rw [rest_resp_more hp hmore, hbits]
    rfl
  · refine ⟨[s.rsp], rfl, ht.mono fun fuel hfuel => ?_⟩
    rw [rest_idle rfl] at hfuel
    cases hfuel
    exact rest_resp_last hp hlast

/-- A step of a command in progress: what was left is what it sends and what is left after it. -/
theorem blockStep_ends (hr : s.rst = false) (hi : s.ctrlInv) (hp : s.phase ≠ .idle) (h : blockStep s = .next t)
    (ht : t.ends beats g) : ∃ new, t.sent = s.sent ++ new ∧ s.ends (new ++ beats) g := by
  obtain ⟨hpack, -, -, hreply⟩ := hi
  have hquiet : s.phase ≠ .resp → t.sent = s.sent := fun hne => by
    rcases blockStep_channels hr h with ⟨hidle, -⟩ | ⟨hresp, -⟩ | ⟨-, -, -, hsent⟩
    · exact absurd hidle hp
    · exact absurd hresp hne
    · exact hsent
  rcases blockStep_cases hr h with ⟨hidle, -⟩ | ⟨hp, h⟩ | ⟨hp, h⟩ | ⟨hp, h⟩ | ⟨hp, h⟩
  · exact absurd hidle hp
  · exact ⟨[], by simp [hquiet (by simp [hp])], needStep_ends hp (hpack (.inl hp)) h ht⟩
  · exact ⟨[], by simp [hquiet (by simp [hp])], fillStep_ends hp h ht⟩
  · obtain ⟨-, hk, -⟩ := hpack (.inr (.inr hp))
    exact ⟨[], by simp [hquiet (by simp [hp])], checkStep_ends hp hk h ht⟩
  · exact respStep_ends hp hreply h ht

/-- What an acceptance leaves to do is the command at command level. -/
theorem exec_ends {i : Instr} (h : exec i s = .next t) (ht : t.ends beats g) :
    ∀ᶠ fuel in atTop, runCommand hw fuel i s.gen = some (beats, g) := by
  cases accepted_of_exec h with
  | bit a =>
    refine ht.mono fun fuel hfuel => ?_
    rw [rest_need rfl, packRest_fresh rfl rfl] at hfuel
    rw [runCommand, ← refPack_one (by decide), refPack_in_range (by decide), ← hfuel, Option.map_eq_bind]
    rfl
  | bits hn =>
    refine ht.mono fun fuel hfuel => ?_
    rw [rest_of_bits rfl rfl rfl rfl rfl hn] at hfuel
    rw [runCommand, refBits, if_neg (by simpa [zeroCount] using hn)]
    exact hfuel
  | pack hk =>
    refine ht.mono fun fuel hfuel => ?_
    rw [rest_need rfl, packRest_fresh rfl rfl, State.startPack_kreg, packCount_toNat hk] at hfuel
    rw [runCommand, refPack_in_range hk, ← hfuel, Option.map_eq_bind]
    rfl
  | bounded hmax =>
    filter_upwards [ends_sampleLoop rfl rfl rfl rfl (boundedWidth_le_64 hmax) ht] with fuel hloop
    rw [State.startPack_kreg, boundedWidth_toNat (Nat.one_le_of_lt hmax)] at hloop
    rw [runCommand, refBounded, sample_eq_sampleLoop hmax]
    exact hloop
  | empty =>
    refine ht.mono fun fuel hfuel => ?_
    rw [rest_resp_last rfl (by simp)] at hfuel
    exact hfuel
  | degenerate hmax =>
    refine ht.mono fun fuel hfuel => ?_
    rw [rest_resp_last rfl (by simp)] at hfuel
    rw [runCommand, refBounded_degenerate hmax]
    exact hfuel
  | refused o hcode href =>
    refine ht.mono fun fuel hfuel => ?_
    rw [rest_resp_last rfl (by simp [State.refuse])] at hfuel
    rw [href]
    exact hfuel

end

end Sys2Proof.Machine
end

section
/-!
A command that never ends at command level keeps the machine busy for ever (44_sequencer.md R149, part (b)).
-/

namespace Sys2Proof.Machine

/-- A command is in progress that never ends, under a host that does nothing. -/
def State.endless (s : State) : Prop :=
  s.rst = false ∧ s.script = [] ∧ s.ctrlInv ∧ ∀ beats g, ¬ s.ends beats g

theorem State.endless.phase_ne_idle {s : State} (h : s.endless) : s.phase ≠ .idle := by
  obtain ⟨-, -, -, hnever⟩ := h
  exact fun hp => hnever [] s.gen (.of_forall fun _ => rest_idle hp)

theorem State.endless.step {s : State} (h : s.endless) : ∃ t, step s = .next t ∧ t.endless := by
  have hp := h.phase_ne_idle
  obtain ⟨hr, hs, hi, hnever⟩ := h
  obtain ⟨t, ht⟩ := step_answers hi
  obtain ⟨u, hu, rfl⟩ := step_next ht
  obtain ⟨hur, hus⟩ := blockStep_ports hr hu
  rw [hostTurn_nil hw (hus.trans hs)] at ht
  refine ⟨u, ht, hur.trans hr, hus.trans hs, blockStep_ctrlInv hr hi hu, fun beats g hends => ?_⟩
  obtain ⟨new, -, hends'⟩ := blockStep_ends hr hi hp hu hends
  exact hnever _ _ hends'

theorem State.endless.runSteps (n : Nat) : ∀ {s : State}, s.endless → ∃ u, runSteps n s = .next u ∧ u.endless := by
  induction n with
  | zero => exact fun h => ⟨_, rfl, h⟩
  | succ n ih =>
    intro s h
    obtain ⟨t, ht, hend⟩ := h.step
    rw [runSteps_succ ht]
    exact ih hend

/-- Settles O42: if anything were left that ends, the command itself would end. -/
theorem endlessCommandNeverIdle : Obligations.EndlessCommandNeverIdle := by
  intro i s hs hp hnone
  obtain ⟨t, ht⟩ := exec_next i s
  obtain ⟨hr, -, hscript⟩ := hs
  obtain ⟨-, -, -, htr, -, -, -, -, htscript, -⟩ := exec_frame ht
  have hendless : t.endless := by
    refine ⟨htr.trans hr, htscript.trans hscript, exec_ctrlInv ht, fun beats g hends => ?_⟩
    obtain ⟨fuel, hfuel⟩ := (exec_ends ht hends).exists
    rw [hnone fuel] at hfuel
    cases hfuel
  refine ⟨t, ht, fun n => ?_⟩
  obtain ⟨u, hu, hend⟩ := hendless.runSteps n
  exact ⟨u, hu, hend.phase_ne_idle⟩

end Sys2Proof.Machine
end

section
/-!
A run without reset, whatever the host's timing (44_sequencer.md R148 to R150, R193): the commands done are those handed over, in order,
and what they left to do is what the run did.
-/

namespace Sys2Proof.Machine

open Filter

section

variable {s t : State}

/-! ### The words still to hand over -/

theorem State.offered_none (hcmd : s.cmd = none) : s.offered = (s.script.filterMap HostAct.word?).map decode := by
  simp [State.offered, hcmd]

theorem State.offered_some {w : CmdWord} (hcmd : s.cmd = some w) :
    s.offered = decode w :: (s.script.filterMap HostAct.word?).map decode := by
  simp [State.offered, hcmd]

/-- A turn of the host moves a word from its script to the channel, or none at all (R192). -/
theorem hostTurn_offered (c : Config) (s : State) : (hostTurn c s).offered = s.offered := by
  cases hs : s.script with
  | nil => rw [hostTurn_nil c hs]
  | cons act rest =>
    have hturn : hostTurn c s = hostAct c s act rest := by simp [hostTurn, hs]
    rw [hturn]
    cases act with
    | offer w => cases hcmd : s.cmd <;> simp [State.offered, hostAct, hs, hcmd, HostAct.word?]
    | pause => simp [State.offered, hostAct, hs, List.filterMap_cons, HostAct.word?]
    | setReady ready => simp [State.offered, hostAct, hs, List.filterMap_cons, HostAct.word?]
    | assertReset sel seedIn => simp [State.offered, hostAct, hs, List.filterMap_cons, HostAct.word?]
    | releaseReset => simp [State.offered, hostAct, hs, List.filterMap_cons, HostAct.word?]

theorem State.offered_eq (hcmd : t.cmd = s.cmd) (hscript : t.script = s.script) : t.offered = s.offered := by
  rw [State.offered, State.offered, hcmd, hscript]

/-! ### Runs -/

theorem ctrlInv_of_sameBlock (h : s.sameBlock t) (ht : t.ctrlInv) : s.ctrlInv := by
  obtain ⟨-, -, -, hphase, hopr, hkreg, hcnt, hacc, hmaxr, hrem, hrsp⟩ := h
  simpa only [State.ctrlInv, State.busy, State.packInv, State.commandInv, State.phaseInv, State.replyInv, hphase, hopr, hkreg, hcnt,
    hacc, hmaxr, hrem, hrsp] using ht

/-- From `s` to `t` what was left of the command in progress, and then the commands `done`, were carried out. -/
def CarriedOut (done : List Instr) (s t : State) : Prop :=
  s.offered = done ++ t.offered ∧ ∃ (first others : List Beat) (g : Gen), s.ends first g ∧
    (∀ᶠ fuel in atTop, runCommands hw fuel done g = some (others, t.gen)) ∧ t.sent = s.sent ++ (first ++ others)

theorem CarriedOut.refl (hp : s.phase = .idle) : CarriedOut [] s s :=
  ⟨rfl, [], [], s.gen, .of_forall fun _ => rest_idle hp, .of_forall fun _ => rfl, by simp⟩

theorem CarriedOut.of_sameBlock {u : State} {done : List Instr} (hblock : u.sameBlock s) (hoffered : u.offered = s.offered)
    (hsent : u.sent = s.sent) (h : CarriedOut done u t) : CarriedOut done s t := by
  obtain ⟨hdone, first, others, g, hends, hcommands, htsent⟩ := h
  exact ⟨hoffered ▸ hdone, first, others, g, hends.of_rest_eq fun _ => (rest_eq_of_sameBlock hblock).symm, hcommands, hsent ▸ htsent⟩

/-- The step that accepts a command puts it before the commands done. -/
theorem CarriedOut.accept {u : State} {w : CmdWord} {done : List Instr} (hp : s.phase = .idle) (hcmd : s.cmd = some w)
    (hexec : exec (decode w) s.takeCommand = .next u) (h : CarriedOut done u t) : CarriedOut (decode w :: done) s t := by
  obtain ⟨hdone, first, others, g, hends, hcommands, hsent⟩ := h
  obtain ⟨-, -, -, -, -, -, hucmd, -, huscript, husent, -⟩ := exec_frame hexec
  refine ⟨?_, [], first ++ others, s.gen, .of_forall fun _ => rest_idle hp, ?_, by rw [hsent, husent]; rfl⟩
  · rw [State.offered_none hucmd, huscript] at hdone
    rw [State.offered_some hcmd, List.cons_append, ← hdone]
    rfl
  · filter_upwards [exec_ends hexec hends, hcommands] with fuel hfirst hothers
    have hcommand : runCommand hw fuel (decode w) s.gen = some (first, g) := hfirst
    simp only [runCommands, hcommand, hothers]

/-- A step of a command in progress sends the first of the beats that were left. -/
theorem CarriedOut.progress {u : State} {done : List Instr} (hr : s.rst = false) (hi : s.ctrlInv) (hp : s.phase ≠ .idle)
    (hu : blockStep s = .next u) (h : CarriedOut done u t) : CarriedOut done s t := by
  obtain ⟨hdone, first, others, g, hends, hcommands, hsent⟩ := h
  obtain ⟨new, husent, hsends⟩ := blockStep_ends hr hi hp hu hends
  obtain ⟨-, huscript⟩ := blockStep_ports hr hu
  have hucmd : u.cmd = s.cmd := by
    rw [blockStep_cmd hu, if_neg (by simp [State.cmdReady, hp])]
  exact ⟨(State.offered_eq hucmd huscript).symm.trans hdone, new ++ first, others, g, hsends, hcommands,
    by rw [hsent, husent, List.append_assoc, List.append_assoc]⟩

theorem CarriedOut.step {u : State} {done : List Instr} (hr : s.rst = false) (hi : s.ctrlInv) (hu : blockStep s = .next u)
    (h : CarriedOut done u t) : ∃ done', CarriedOut done' s t := by
  by_cases hp : s.phase = .idle
  · rw [blockStep_idle hr hp] at hu
    rcases acceptStep_cases hu with ⟨-, rfl⟩ | ⟨w, hcmd, hexec⟩
    · exact ⟨done, h⟩
    · exact ⟨decode w :: done, h.accept hp hcmd hexec⟩
  · exact ⟨done, h.progress hr hi hp hu⟩

theorem runSteps_carriedOut (k : Nat) : ∀ s : State, s.noReset → s.ctrlInv → runSteps k s = .next t → t.phase = .idle →
    ∃ done, CarriedOut done s t := by
  induction k with
  | zero =>
    intro s _ _ h hp
    cases h
    exact ⟨[], .refl hp⟩
  | succ k ih =>
    intro s hs hi h hp
    obtain ⟨s₁, hstep, hrun⟩ := runSteps_succ_next h
    obtain ⟨u, hu, rfl⟩ := step_next hstep
    obtain ⟨hr, hscript⟩ := hs
    obtain ⟨hur, huscript⟩ := blockStep_ports hr hu
    obtain ⟨hblock, hreset⟩ := hostTurn_of_noReset hw (s := u) ⟨hur.trans hr, by rw [huscript, hscript]⟩
    obtain ⟨done, hdone⟩ := ih _ hreset (ctrlInv_of_sameBlock hblock (blockStep_ctrlInv hr hi hu)) hrun hp
    exact (hdone.of_sameBlock hblock (hostTurn_offered hw u) (hostTurn_sent hw u)).step hr hi hu

end

/-- Settles O44: a run from `IDLE` starts with nothing left to do, so its beats are those of the commands done. -/
theorem endedRunsAreReferenceRuns : Obligations.EndedRunsAreReferenceRuns := by
  intro k s t hs hp h hpt
  obtain ⟨done, hoffered, first, others, g, hends, hcommands, hsent⟩ := runSteps_carriedOut k s hs (.of_idle hp) h hpt
  obtain ⟨fuel, hfirst, hothers⟩ := (hends.and hcommands).exists
  rw [rest_idle hp] at hfirst
  cases hfirst
  exact ⟨done, fuel, others, hoffered, hothers, hsent⟩

end Sys2Proof.Machine
end


section
/-!
What a step depends on (44_sequencer.md R148). `State.withoutHost` forgets the straps, the script and the record of beats; a step of the
block reads none of them, so two states that differ in nothing else go on alike.
-/

namespace Sys2Proof.Machine

/-- The state with the straps, the script and the record of beats at fixed values. -/
def State.withoutHost (s : State) : State := { s with seedSel := false, seedIn := 0, script := [], sent := [] }

section

variable {s t u v : State}

theorem withoutHost_eq_iff : s.withoutHost = t.withoutHost ↔
    s.sameBlock t ∧ s.rst = t.rst ∧ s.cmd = t.cmd ∧ s.rspReady = t.rspReady := by
  simp [State.withoutHost, State.sameBlock, and_assoc]

theorem exec_withoutHost (i : Instr) (s : State) : exec i s.withoutHost = mapNext State.withoutHost (exec i s) := by
  cases i with
  | bits n =>
    by_cases hn : n = 0
    · subst hn; rfl
    · rw [exec_bits_of_ne_zero hn, exec_bits_of_ne_zero hn]; rfl
  | pack k =>
    by_cases hk : k.toNat ≤ 64
    · rw [exec_pack_in_range hk, exec_pack_in_range hk]; rfl
    · have hlarge : hw.packMax < k.toNat := Nat.lt_of_not_le hk
      rw [exec_pack_refused hlarge, exec_pack_refused hlarge]; rfl
  | bounded max =>
    by_cases hmax : max.toNat ≤ 1
    · rw [exec_bounded_degenerate hmax, exec_bounded_degenerate hmax]; rfl
    · have htwo : 2 ≤ max.toNat := Nat.lt_of_not_le hmax
      rw [exec_bounded_of_two_le htwo, exec_bounded_of_two_le htwo]; rfl
  | bit a => rfl
  | reserved0 a => rfl
  | reserved5 a => rfl
  | reserved6 a => rfl
  | reserved7 a => rfl

theorem acceptStep_withoutHost (h : acceptStep s = .next u) : acceptStep s.withoutHost = .next u.withoutHost := by
  rcases acceptStep_cases h with ⟨hcmd, rfl⟩ | ⟨w, hcmd, hexec⟩
  · exact acceptStep_none hcmd
  · have hcomm := exec_withoutHost (decode w) s.takeCommand
    rw [hexec] at hcomm
    exact (acceptStep_some (s := s.withoutHost) hcmd).trans hcomm

theorem needStep_withoutHost (h : needStep s = .next u) : needStep s.withoutHost = .next u.withoutHost := by
  rcases needStep_cases h with ⟨hc, rfl⟩ | ⟨hc, hq, rfl⟩ | ⟨hc, hlt, b, rest, hq, rfl⟩
  · exact needStep_check (s := s.withoutHost) hc
  · exact needStep_fill (s := s.withoutHost) hc hq
  · exact needStep_draw (s := s.withoutHost) hc hq hlt

theorem fillStep_withoutHost (h : fillStep hw s = .next u) : fillStep hw s.withoutHost = .next u.withoutHost := by
  rcases fillStep_cases h with ⟨hlow, rfl⟩ | ⟨hhigh, rfl⟩
  · exact fillStep_pull (s := s.withoutHost) hlow
  · exact fillStep_done (s := s.withoutHost) hhigh

theorem checkStep_withoutHost (h : checkStep s = .next u) : checkStep s.withoutHost = .next u.withoutHost := by
  rcases checkStep_cases h with ⟨ho, rfl⟩ | ⟨ho, hrem, rfl⟩ | ⟨ho, haccept, rfl⟩ | ⟨ho, hreject, rfl⟩
  · exact checkStep_pack (s := s.withoutHost) ho
  · exact checkStep_bits (s := s.withoutHost) ho hrem
  · exact checkStep_accept (s := s.withoutHost) ho haccept
  · exact checkStep_reject (s := s.withoutHost) ho hreject

/-- `RESP` alone writes the record, so the record is forgotten again after it. -/
theorem respStep_withoutHost (h : respStep s = .next u) :
    mapNext State.withoutHost (respStep s.withoutHost) = .next u.withoutHost := by
  rcases respStep_cases h with ⟨hready, rfl⟩ | ⟨hready, hmore, rfl⟩ | ⟨hready, hlast, rfl⟩
  · rw [respStep_hold (s := u.withoutHost) hready]; rfl
  · rw [respStep_more (s := s.withoutHost) hready hmore]; rfl
  · rw [respStep_last (s := s.withoutHost) hready hlast]; rfl

theorem blockStep_withoutHost (hr : s.rst = false) (h : blockStep s = .next u) :
    mapNext State.withoutHost (blockStep s.withoutHost) = .next u.withoutHost := by
  rcases blockStep_cases hr h with ⟨hp, h⟩ | ⟨hp, h⟩ | ⟨hp, h⟩ | ⟨hp, h⟩ | ⟨hp, h⟩
  · rw [blockStep_idle (s := s.withoutHost) hr hp, acceptStep_withoutHost h]; rfl
  · rw [blockStep_need (s := s.withoutHost) hr hp, needStep_withoutHost h]; rfl
  · rw [blockStep_fill (s := s.withoutHost) hr hp, fillStep_withoutHost h]; rfl
  · rw [blockStep_check (s := s.withoutHost) hr hp, checkStep_withoutHost h]; rfl
  · rw [blockStep_resp (s := s.withoutHost) hr hp]; exact respStep_withoutHost h

theorem blockStep_sameBlock (hsame : s.sameBlock t) (hsr : s.rst = false) (htr : t.rst = false) (hcmd : s.cmd = t.cmd)
    (hready : s.rspReady = t.rspReady) (hu : blockStep s = .next u) (hv : blockStep t = .next v) : u.sameBlock v := by
  have hforget : s.withoutHost = t.withoutHost := withoutHost_eq_iff.mpr ⟨hsame, hsr.trans htr.symm, hcmd, hready⟩
  have hcommon := blockStep_withoutHost hsr hu
  rw [hforget, blockStep_withoutHost htr hv] at hcommon
  obtain ⟨hblock, -⟩ := withoutHost_eq_iff.mp (Host.Outcome.next.inj hcommon).symm
  exact hblock

theorem State.sameBlock_symm (h : s.sameBlock t) : t.sameBlock s := by
  simpa only [State.sameBlock, eq_comm] using h

theorem State.sameBlock_trans (h : s.sameBlock t) (h' : t.sameBlock u) : s.sameBlock u := by
  simp_all only [State.sameBlock, and_self]

end

/-- Settles O46: the block reads nothing else, the turns of the two hosts leave it alone, and the beat sent is `RSP`. -/
theorem blockIgnoresHostTiming : Obligations.BlockIgnoresHostTiming := by
  intro s t s' t' hsame hs ht hcmd hready hstep htstep
  obtain ⟨u, hu, rfl⟩ := step_next hstep
  obtain ⟨v, hv, rfl⟩ := step_next htstep
  obtain ⟨hsr, hsscript⟩ := hs
  obtain ⟨htr, htscript⟩ := ht
  obtain ⟨hur, huscript⟩ := blockStep_ports hsr hu
  obtain ⟨hvr, hvscript⟩ := blockStep_ports htr hv
  obtain ⟨hublock, -⟩ := hostTurn_of_noReset hw (s := u) ⟨hur.trans hsr, by rw [huscript, hsscript]⟩
  obtain ⟨hvblock, -⟩ := hostTurn_of_noReset hw (s := v) ⟨hvr.trans htr, by rw [hvscript, htscript]⟩
  have huv : u.sameBlock v := blockStep_sameBlock hsame hsr htr hcmd hready hu hv
  refine ⟨State.sameBlock_trans (State.sameBlock_trans hublock huv) (State.sameBlock_symm hvblock), ?_⟩
  obtain ⟨-, -, -, hphase, -, -, -, -, -, -, hrsp⟩ := hsame
  have hvalid : t.rspValid = s.rspValid := by rw [State.rspValid, State.rspValid, hsr, htr, hphase]
  rw [hostTurn_sent, hostTurn_sent, blockStep_sent hu, blockStep_sent hv, hvalid, ← hready, ← hrsp]
  by_cases hsend : (s.rspValid && s.rspReady) = true
  · exact ⟨[s.rsp], by rw [if_pos hsend], by rw [if_pos hsend]⟩
  · exact ⟨[], by rw [if_neg hsend, List.append_nil], by rw [if_neg hsend, List.append_nil]⟩

end Sys2Proof.Machine
end

section
/-!
Nothing in the working registers outlives a command (10_state.md R20). Two blocks are `liveAgree` when they agree on `STATE`, `Q`, `PHASE`
and the registers that the command in progress still reads; an acceptance brings this about, whatever the registers held, and every step
of a command keeps it.
-/

namespace Sys2Proof.Machine

/-- The registers that a pack being drawn and its `CHECK` read agree: `REM` counts for a `BITS` only, `MAXR` for a `BOUNDED` only. -/
def State.packAgree (s t : State) : Prop :=
  s.opr = t.opr ∧ s.kreg = t.kreg ∧ s.cnt = t.cnt ∧ s.acc = t.acc ∧ (s.opr = 2 → s.rem = t.rem) ∧ (s.opr = 4 → s.maxr = t.maxr)

/-- The registers that `RESP` and what follows it read agree: only a `BITS` goes on after its beat. -/
def State.replyAgree (s t : State) : Prop :=
  s.rsp = t.rsp ∧ (s.rsp.status = .okMore → s.opr = 2 ∧ t.opr = 2 ∧ s.kreg = t.kreg ∧ s.rem = t.rem)

/-- Two blocks that the rest of the command in progress cannot tell apart. -/
def State.liveAgree (s t : State) : Prop :=
  s.phase = t.phase ∧ s.gen = t.gen ∧ (s.busy → s.packAgree t) ∧ (s.phase = .resp → s.replyAgree t)

section

variable {s t u v : State}

theorem State.liveAgree.of_idle (hs : s.phase = .idle) (ht : t.phase = .idle) (hgen : s.gen = t.gen) : s.liveAgree t :=
  ⟨hs.trans ht.symm, hgen, by simp [State.busy, hs], by simp [hs]⟩

theorem State.liveAgree.of_busy (hphase : s.phase = t.phase) (hgen : s.gen = t.gen) (hresp : s.phase ≠ .resp)
    (h : s.packAgree t) : s.liveAgree t :=
  ⟨hphase, hgen, fun _ => h, fun hp => absurd hp hresp⟩

theorem State.liveAgree.of_resp (hs : s.phase = .resp) (ht : t.phase = .resp) (hgen : s.gen = t.gen) (h : s.replyAgree t) :
    s.liveAgree t :=
  ⟨hs.trans ht.symm, hgen, by simp [State.busy, hs], fun _ => h⟩

/-- A beat after which the command is over carries everything that is still read. -/
theorem State.liveAgree.of_last {status : Status} {d : Word} (hlast : status ≠ .okMore) (hgen : s.gen = t.gen) :
    (s.offerReply status d).liveAgree (t.offerReply status d) :=
  .of_resp rfl rfl hgen ⟨rfl, fun h => absurd h hlast⟩

theorem exec_liveAgree {i : Instr} (hgen : s.gen = t.gen) (hu : exec i s = .next u) (hv : exec i t = .next v) : u.liveAgree v := by
  cases i with
  | bit a =>
    cases hu; cases hv
    exact .of_busy rfl hgen (by simp) ⟨rfl, rfl, rfl, rfl, by simp, by simp⟩
  | bits n =>
    by_cases hn : n = 0
    · subst hn; cases hu; cases hv
      exact .of_last (by simp) hgen
    · rw [exec_bits_of_ne_zero hn] at hu hv; cases hu; cases hv
      exact .of_busy rfl hgen (by simp) ⟨rfl, rfl, rfl, rfl, fun _ => rfl, by simp⟩
  | pack k =>
    by_cases hk : k.toNat ≤ 64
    · rw [exec_pack_in_range hk] at hu hv; cases hu; cases hv
      exact .of_busy rfl hgen (by simp) ⟨rfl, rfl, rfl, rfl, by simp, by simp⟩
    · rw [exec_pack_refused (Nat.lt_of_not_le hk)] at hu hv; cases hu; cases hv
      exact .of_last (by simp) hgen
  | bounded max =>
    by_cases hmax : max.toNat ≤ 1
    · rw [exec_bounded_degenerate hmax] at hu hv; cases hu; cases hv
      exact .of_last (by simp) hgen
    · rw [exec_bounded_of_two_le (Nat.lt_of_not_le hmax)] at hu hv; cases hu; cases hv
      exact .of_busy rfl hgen (by simp) ⟨rfl, rfl, rfl, rfl, by simp, fun _ => rfl⟩
  | reserved0 a => cases hu; cases hv; exact .of_last (by simp) hgen
  | reserved5 a => cases hu; cases hv; exact .of_last (by simp) hgen
  | reserved6 a => cases hu; cases hv; exact .of_last (by simp) hgen
  | reserved7 a => cases hu; cases hv; exact .of_last (by simp) hgen

theorem needStep_liveAgree (h : s.liveAgree t) (hp : s.phase = .need) (hu : needStep s = .next u) (hv : needStep t = .next v) :
    u.liveAgree v := by
  obtain ⟨hphase, hgen, hpack, -⟩ := h
  have hagree : s.packAgree t := hpack (.inl hp)
  obtain ⟨hopr, hkreg, hcnt, hacc, hrem, hmaxr⟩ := hagree
  have hstate : s.state = t.state := congrArg Gen.state hgen
  have hqt : s.q = t.q := congrArg Gen.q hgen
  rcases needStep_cases hu with ⟨hc, rfl⟩ | ⟨hc, hq, rfl⟩ | ⟨hc, hlt, b, rest, hq, rfl⟩
  · rw [needStep_check (by rw [← hcnt, ← hkreg, hc])] at hv; cases hv
    exact .of_busy rfl hgen (by simp) ⟨hopr, hkreg, hcnt, hacc, hrem, hmaxr⟩
  · rw [needStep_fill (by rwa [← hcnt, ← hkreg]) (hqt ▸ hq)] at hv; cases hv
    exact .of_busy rfl hgen (by simp) ⟨hopr, hkreg, hcnt, hacc, hrem, hmaxr⟩
  · rw [needStep_draw (by rwa [← hcnt, ← hkreg]) (hqt ▸ hq) (hcnt ▸ hlt)] at hv; cases hv
    refine .of_busy hphase ?_ (by simp [hp]) ⟨hopr, hkreg, ?_, ?_, hrem, hmaxr⟩
    · rw [State.gen, State.gen, State.drawBit_state, State.drawBit_state, State.drawBit_q, State.drawBit_q, hstate, hqt]
    · rw [State.drawBit_cnt, State.drawBit_cnt, hcnt]
    · rw [State.drawBit_acc, State.drawBit_acc, hacc, hcnt]

theorem fillStep_liveAgree (h : s.liveAgree t) (hp : s.phase = .fill) (hu : fillStep hw s = .next u)
    (hv : fillStep hw t = .next v) : u.liveAgree v := by
  obtain ⟨hphase, hgen, hpack, -⟩ := h
  have hagree : s.packAgree t := hpack (.inr (.inl hp))
  have hq : s.q = t.q := congrArg Gen.q hgen
  rcases fillStep_cases hu with ⟨hlow, rfl⟩ | ⟨hhigh, rfl⟩
  · rw [fillStep_pull (hq ▸ hlow)] at hv; cases hv
    exact .of_busy hphase (congrArg (genPull hw) hgen) (by simp [hp]) hagree
  · rw [fillStep_done (hq ▸ hhigh)] at hv; cases hv
    exact .of_busy rfl hgen (by simp) hagree

theorem checkStep_liveAgree (h : s.liveAgree t) (hp : s.phase = .check) (hu : checkStep s = .next u) (hv : checkStep t = .next v) :
    u.liveAgree v := by
  obtain ⟨-, hgen, hpack, -⟩ := h
  have hagree : s.packAgree t := hpack (.inr (.inr hp))
  obtain ⟨hopr, hkreg, hcnt, hacc, hrem, hmaxr⟩ := hagree
  rcases checkStep_cases hu with ⟨ho, rfl⟩ | ⟨ho, hne, rfl⟩ | ⟨ho, haccept, rfl⟩ | ⟨ho, hreject, rfl⟩
  · rw [checkStep_pack (hopr ▸ ho), ← hacc] at hv; cases hv
    exact .of_last (by simp) hgen
  · have hsame := hrem ho
    rw [checkStep_bits (hopr ▸ ho) (hsame ▸ hne), ← hacc, ← hsame] at hv; cases hv
    exact .of_resp rfl rfl hgen ⟨rfl, fun _ => ⟨ho, hopr ▸ ho, hkreg, rfl⟩⟩
  · rw [checkStep_accept (hopr ▸ ho) (hacc ▸ hmaxr ho ▸ haccept), ← hacc] at hv; cases hv
    exact .of_last (by simp) hgen
  · rw [checkStep_reject (hopr ▸ ho) (hacc ▸ hmaxr ho ▸ hreject)] at hv; cases hv
    exact .of_busy rfl hgen (by simp) ⟨hopr, hkreg, rfl, rfl, hrem, hmaxr⟩

theorem respStep_liveAgree (h : s.liveAgree t) (hp : s.phase = .resp) (hready : s.rspReady = t.rspReady)
    (hu : respStep s = .next u) (hv : respStep t = .next v) : u.liveAgree v := by
  have hagree := h
  obtain ⟨-, hgen, -, hreply⟩ := h
  obtain ⟨hrsp, hmore⟩ := hreply hp
  rcases respStep_cases hu with ⟨hy, rfl⟩ | ⟨hy, hst, rfl⟩ | ⟨hy, hst, rfl⟩
  · rw [respStep_hold (hready ▸ hy)] at hv; cases hv
    exact hagree
  · obtain ⟨hos, hot, hkreg, hrem⟩ := hmore hst
    rw [respStep_more (hready ▸ hy) (hrsp ▸ hst)] at hv; cases hv
    exact .of_busy rfl hgen (by simp) ⟨hos.trans hot.symm, hkreg, rfl, rfl, fun _ => hrem, by simp [hos]⟩
  · rw [respStep_last (hready ▸ hy) (hrsp ▸ hst)] at hv; cases hv
    exact .of_idle rfl rfl hgen

/-! ### Steps and runs of two blocks side by side -/

/-- Two blocks side by side under hosts that take every beat and offer no further word: they agree on what is still read, and have sent
the same beats since `s₀` and `t₀`. -/
def InStep (s₀ t₀ s t : State) : Prop :=
  (s.attentive ∧ s.cmd = none) ∧ (t.attentive ∧ t.cmd = none) ∧ s.liveAgree t ∧
  ∃ beats : List Beat, s.sent = s₀.sent ++ beats ∧ t.sent = t₀.sent ++ beats

theorem InStep.phase_gen {s₀ t₀ : State} (h : InStep s₀ t₀ s t) : s.phase = t.phase ∧ s.gen = t.gen := by
  obtain ⟨-, -, ⟨hphase, hgen, -, -⟩, -⟩ := h
  exact ⟨hphase, hgen⟩

theorem blockStep_rspReady (hr : s.rst = false) (h : blockStep s = .next u) : u.rspReady = s.rspReady := by
  rcases blockStep_cases hr h with ⟨-, h⟩ | ⟨-, h⟩ | ⟨-, h⟩ | ⟨-, h⟩ | ⟨-, h⟩
  · rcases acceptStep_cases h with ⟨-, rfl⟩ | ⟨w, -, hexec⟩
    · rfl
    · obtain ⟨-, -, -, -, -, -, -, hready, -⟩ := exec_frame hexec
      exact hready
  · rcases needStep_cases h with ⟨-, rfl⟩ | ⟨-, -, rfl⟩ | ⟨-, -, b, rest, -, rfl⟩ <;> rfl
  · rcases fillStep_cases h with ⟨-, rfl⟩ | ⟨-, rfl⟩ <;> rfl
  · rcases checkStep_cases h with ⟨-, rfl⟩ | ⟨-, -, rfl⟩ | ⟨-, -, rfl⟩ | ⟨-, -, rfl⟩ <;> rfl
  · rcases respStep_cases h with ⟨-, rfl⟩ | ⟨-, -, rfl⟩ | ⟨-, -, rfl⟩ <;> rfl

/-- Under a host that does nothing more, a step is the step of the block. -/
theorem step_attentive (hs : s.attentive) (h : step s = .next u) : blockStep s = .next u ∧ u.attentive := by
  obtain ⟨hr, hready, hscript⟩ := hs
  obtain ⟨v, hv, rfl⟩ := step_next h
  obtain ⟨hvr, hvscript⟩ := blockStep_ports hr hv
  have hnil := hvscript.trans hscript
  rw [hostTurn_nil hw hnil]
  exact ⟨hv, hvr.trans hr, (blockStep_rspReady hr hv).trans hready, hnil⟩

theorem blockStep_liveAgree (h : s.liveAgree t) (hs : s.attentive) (ht : t.attentive) (hscmd : s.cmd = none) (htcmd : t.cmd = none)
    (hu : blockStep s = .next u) (hv : blockStep t = .next v) : u.liveAgree v := by
  obtain ⟨hsr, hsready, -⟩ := hs
  obtain ⟨htr, htready, -⟩ := ht
  have hphase : s.phase = t.phase := h.1
  rcases blockStep_cases hsr hu with ⟨hp, hu⟩ | ⟨hp, hu⟩ | ⟨hp, hu⟩ | ⟨hp, hu⟩ | ⟨hp, hu⟩
  · rw [acceptStep_none hscmd] at hu; cases hu
    rw [blockStep_idle htr (hphase ▸ hp), acceptStep_none htcmd] at hv; cases hv
    exact h
  · exact needStep_liveAgree h hp hu (blockStep_need htr (hphase ▸ hp) ▸ hv)
  · exact fillStep_liveAgree h hp hu (blockStep_fill htr (hphase ▸ hp) ▸ hv)
  · exact checkStep_liveAgree h hp hu (blockStep_check htr (hphase ▸ hp) ▸ hv)
  · exact respStep_liveAgree h hp (hsready.trans htready.symm) hu (blockStep_resp htr (hphase ▸ hp) ▸ hv)

/-- The beat that a step sends, if it sends one, is in the registers that agree. -/
theorem blockStep_sent_liveAgree (h : s.liveAgree t) (hs : s.attentive) (ht : t.attentive) (hu : blockStep s = .next u)
    (hv : blockStep t = .next v) : ∃ new : List Beat, u.sent = s.sent ++ new ∧ v.sent = t.sent ++ new := by
  obtain ⟨hphase, -, -, hreply⟩ := h
  obtain ⟨hsr, hsready, -⟩ := hs
  obtain ⟨htr, htready, -⟩ := ht
  rw [blockStep_sent hu, blockStep_sent hv]
  by_cases hp : s.phase = .resp
  · obtain ⟨hrsp, -⟩ := hreply hp
    have hsend : (s.rspValid && s.rspReady) = true := by simp [State.rspValid, hsr, hsready, hp]
    have htsend : (t.rspValid && t.rspReady) = true := by simp [State.rspValid, htr, htready, hphase ▸ hp]
    exact ⟨[s.rsp], by rw [if_pos hsend], by rw [if_pos htsend, hrsp]⟩
  · have hsend : ¬ (s.rspValid && s.rspReady) = true := by simp [State.rspValid, hp]
    have htsend : ¬ (t.rspValid && t.rspReady) = true := by simp [State.rspValid, hphase ▸ hp]
    exact ⟨[], by rw [if_neg hsend, List.append_nil], by rw [if_neg htsend, List.append_nil]⟩

theorem blockStep_cmd_none (h : s.cmd = none) (hu : blockStep s = .next u) : u.cmd = none := by
  rw [blockStep_cmd hu, h, ite_self]

theorem InStep.step {s₀ t₀ : State} (h : InStep s₀ t₀ s t) (hu : step s = .next u) (hv : step t = .next v) :
    InStep s₀ t₀ u v := by
  obtain ⟨⟨hs, hscmd⟩, ⟨ht, htcmd⟩, hlive, beats, hssent, htsent⟩ := h
  obtain ⟨hu, hua⟩ := step_attentive hs hu
  obtain ⟨hv, hva⟩ := step_attentive ht hv
  obtain ⟨new, husent, hvsent⟩ := blockStep_sent_liveAgree hlive hs ht hu hv
  exact ⟨⟨hua, blockStep_cmd_none hscmd hu⟩, ⟨hva, blockStep_cmd_none htcmd hv⟩,
    blockStep_liveAgree hlive hs ht hscmd htcmd hu hv, beats ++ new,
    by rw [husent, hssent, List.append_assoc], by rw [hvsent, htsent, List.append_assoc]⟩

theorem InStep.runSteps {s₀ t₀ : State} (k : Nat) : ∀ {s t : State}, InStep s₀ t₀ s t → runSteps k s = .next u →
    runSteps k t = .next v → InStep s₀ t₀ u v := by
  induction k with
  | zero => intro s t h hu hv; cases hu; cases hv; exact h
  | succ k ih =>
    intro s t h hu hv
    obtain ⟨s₁, hs₁, hu⟩ := runSteps_succ_next hu
    obtain ⟨t₁, ht₁, hv⟩ := runSteps_succ_next hv
    exact ih (h.step hs₁ ht₁) hu hv

/-- The step that accepts the word on the channel. -/
theorem step_withCommand (hs : s.attentive) {i : Instr} (h : step (s.withCommand (encode i)) = .next u) :
    exec i (s.withCommand (encode i)).takeCommand = .next u ∧ u.attentive ∧ u.cmd = none ∧ u.sent = s.sent := by
  obtain ⟨-, hready, hscript⟩ := hs
  obtain ⟨hu, hua⟩ := step_attentive (s := s.withCommand (encode i)) ⟨rfl, hready, hscript⟩ h
  rw [blockStep_idle rfl rfl, acceptStep_some rfl, decode_encode] at hu
  obtain ⟨-, -, -, -, -, -, hcmd, -, -, hsent, -⟩ := exec_frame hu
  exact ⟨hu, hua, hcmd, hsent⟩

end

/-- Settles O47: acceptance makes the two blocks agree on all that is read later, and they stay in step. -/
theorem workingRegistersNotCarried : Obligations.WorkingRegistersNotCarried := by
  intro k i s t s' t' hs ht hps hpt hgen _ _ hrs hrt
  cases k with
  | zero =>
    cases hrs; cases hrt
    exact ⟨rfl, hgen, [], (List.append_nil _).symm, (List.append_nil _).symm⟩
  | succ k =>
    obtain ⟨u, hu, hrs⟩ := runSteps_succ_next hrs
    obtain ⟨v, hv, hrt⟩ := runSteps_succ_next hrt
    obtain ⟨huexec, hua, hucmd, husent⟩ := step_withCommand hs hu
    obtain ⟨hvexec, hva, hvcmd, hvsent⟩ := step_withCommand ht hv
    have hlive : u.liveAgree v := exec_liveAgree (s := (s.withCommand (encode i)).takeCommand)
      (t := (t.withCommand (encode i)).takeCommand) hgen huexec hvexec
    have hstart : InStep s t u v := ⟨⟨hua, hucmd⟩, ⟨hva, hvcmd⟩, hlive, [],
      husent.trans (List.append_nil _).symm, hvsent.trans (List.append_nil _).symm⟩
    have hend := hstart.runSteps k hrs hrt
    obtain ⟨hphase, hgen'⟩ := hend.phase_gen
    obtain ⟨-, -, -, hbeats⟩ := hend
    exact ⟨hphase, hgen', hbeats⟩

end Sys2Proof.Machine
end

section
/-!
The replies do not depend on the refill threshold (20_memory.md R55, 93_implementation_defined.md U7). `Q` and the words still to be pulled
are one infinite bit stream, fixed by the seed; the threshold decides only how far ahead of the bits taken the words are pulled.
-/

namespace Sys2Proof.Machine

/-- After `taken` bits from `STATE` = `x` and an empty `Q`, the generator stands at `g`. -/
def Taken (x : Word) (taken : List Bit) (g : Gen) : Prop :=
  ∃ m : Nat, taken ++ g.q = stream hw m x ∧ g.state = xsIter hw m x

/-- The configuration differs from this hardware in the threshold at most. -/
def OtherThreshold (c : Config) : Prop := ∃ n : Nat, c = { hw with thresh := n }

section

variable {c c' : Config} {x : Word} {fuel fuel' : Nat}

/-! ### The stream does not depend on the threshold -/

theorem OtherThreshold.stream_eq (hc : OtherThreshold c) (m : Nat) (x : Word) : stream c m x = stream hw m x := by
  obtain ⟨n, rfl⟩ := hc
  induction m generalizing x with
  | zero => rfl
  | succ m ih => exact congrArg (group hw (xsWord hw x) ++ ·) (ih (xsState hw x))

theorem OtherThreshold.xsIter_eq (hc : OtherThreshold c) (m : Nat) (x : Word) : xsIter c m x = xsIter hw m x := by
  obtain ⟨n, rfl⟩ := hc
  induction m generalizing x with
  | zero => rfl
  | succ m ih => exact ih (xsState hw x)

theorem OtherThreshold.packMax_eq (hc : OtherThreshold c) : c.packMax = 64 := by
  obtain ⟨n, rfl⟩ := hc
  rfl

theorem OtherThreshold.genReset_eq (hc : OtherThreshold c) (sel : Bool) (seedIn : Word) :
    genReset c sel seedIn = ⟨seedState hw sel seedIn, []⟩ := by
  obtain ⟨n, rfl⟩ := hc
  rfl

theorem stream_prefix {m m' : Nat} (h : m ≤ m') (x : Word) : stream hw m x <+: stream hw m' x := by
  obtain ⟨k, rfl⟩ := Nat.exists_eq_add_of_le h
  rw [stream_add]
  exact List.prefix_append _ _

/-! ### Bits taken -/

theorem Taken.nil (x : Word) : Taken x [] ⟨x, []⟩ := ⟨0, rfl, rfl⟩

theorem Taken.takeBits {n : Nat} {taken bs : List Bit} {g g₁ : Gen} (hc : OtherThreshold c) (h : Taken x taken g)
    (hbs : takeBits c fuel n g = some (bs, g₁)) : Taken x (taken ++ bs) g₁ := by
  obtain ⟨m, hq, hstate⟩ := h
  obtain ⟨-, m₁, hq₁, hstate₁⟩ := takeBits_spec c fuel n g g₁ bs hbs
  rw [hc.stream_eq] at hq₁
  rw [hc.xsIter_eq] at hstate₁
  refine ⟨m + m₁, ?_, ?_⟩
  · rw [List.append_assoc, hq₁, ← List.append_assoc, hq, hstate, stream_add]
  · rw [hstate₁, hstate, xsIter_add]

/-- The bits taken are the front of the one stream. -/
theorem Taken.eq_of_length_eq {taken taken' : List Bit} {g g' : Gen} (h : Taken x taken g) (h' : Taken x taken' g')
    (hlen : taken.length = taken'.length) : taken = taken' := by
  obtain ⟨m, hq, -⟩ := h
  obtain ⟨m', hq', -⟩ := h'
  have hpre : taken <+: stream hw (max m m') x := 
    (hq ▸ List.prefix_append taken g.q).trans (stream_prefix (le_max_left m m') x)
  have hpre' : taken' <+: stream hw (max m m') x := 
    (hq' ▸ List.prefix_append taken' g'.q).trans (stream_prefix (le_max_right m m') x)
  exact (List.prefix_of_prefix_length_le hpre hpre' hlen.le).eq_of_length hlen

/-- Two generators of the same seed from which equally many bits were taken. -/
def Aligned (x : Word) (g g' : Gen) : Prop := ∃ taken : List Bit, Taken x taken g ∧ Taken x taken g'

theorem refReserved_aligned {g g₁ g' g₁' : Gen} {beats beats' : List Beat} (hg : Aligned x g g')
    (h : refReserved g = some (beats, g₁)) (h' : refReserved g' = some (beats', g₁')) : beats = beats' ∧ Aligned x g₁ g₁' := by
  cases h; cases h'
  exact ⟨rfl, hg⟩

/-! ### The command-level operations side by side -/

section

variable (hc : OtherThreshold c) (hc' : OtherThreshold c') {g g₁ g' g₁' : Gen} (hg : Aligned x g g')
include hc hc' hg

theorem takeBits_aligned {n : Nat} {bs bs' : List Bit} (h : takeBits c fuel n g = some (bs, g₁))
    (h' : takeBits c' fuel' n g' = some (bs', g₁')) : bs = bs' ∧ Aligned x g₁ g₁' := by
  obtain ⟨taken, ht, ht'⟩ := hg
  have hlen : bs.length = n := (takeBits_spec c fuel n g g₁ bs h).1
  have hlen' : bs'.length = n := (takeBits_spec c' fuel' n g' g₁' bs' h').1
  have htaken := ht.takeBits hc h
  have htaken' := ht'.takeBits hc' h'
  have hall := htaken.eq_of_length_eq htaken' (by rw [List.length_append, List.length_append, hlen, hlen'])
  obtain rfl : bs = bs' := List.append_cancel_left hall
  exact ⟨rfl, _, htaken, htaken'⟩

theorem packBits_aligned {k : Nat} (hk : k ≤ 64) {v v' : Word} (h : packBits c fuel k g = some (v, g₁))
    (h' : packBits c' fuel' k g' = some (v', g₁')) : v = v' ∧ Aligned x g₁ g₁' := by
  obtain ⟨bs, hbs, hv⟩ := packBits_eq_some hk h
  obtain ⟨bs', hbs', hv'⟩ := packBits_eq_some hk h'
  obtain ⟨rfl, hg₁⟩ := takeBits_aligned hc hc' hg hbs hbs'
  exact ⟨BitVec.eq_of_toNat_eq (hv.trans hv'.symm), hg₁⟩

end

section

variable (hc : OtherThreshold c) (hc' : OtherThreshold c')
include hc hc'

/-- Attempt by attempt, both loops see the same candidate, so they accept the same one. -/
theorem sampleLoop_aligned {width : Nat} (hwidth : width ≤ 64) {max v v' : Word} {g₁ g₁' : Gen} (a : Nat) :
    ∀ (a' : Nat) (g g' : Gen), Aligned x g g' → sampleLoop c fuel width max a g = some (v, g₁) →
      sampleLoop c' fuel' width max a' g' = some (v', g₁') → v = v' ∧ Aligned x g₁ g₁' := by
  induction a with
  | zero => intro a' g g' _ h; cases h
  | succ a ih =>
    intro a' g g' hg h h'
    cases a' with
    | zero => cases h'
    | succ a' =>
      rw [sampleLoop_succ] at h h'
      obtain ⟨⟨u, k⟩, hpack, h⟩ := Option.bind_eq_some_iff.mp h
      obtain ⟨⟨u', k'⟩, hpack', h'⟩ := Option.bind_eq_some_iff.mp h'
      obtain ⟨rfl, hk⟩ := packBits_aligned hc hc' hg hwidth hpack hpack'
      cases haccept : acceptFlag u max with
      | true =>
        simp only [haccept, if_true] at h h'
        cases h; cases h'
        exact ⟨rfl, hk⟩
      | false =>
        simp only [haccept, Bool.false_eq_true, if_false] at h h'
        exact ih a' k k' hk h h'

end

section

variable (hc : OtherThreshold c) (hc' : OtherThreshold c') {g g₁ g' g₁' : Gen} (hg : Aligned x g g') {beats beats' : List Beat}
include hc hc' hg

theorem refBits_aligned {n : Word} (h : refBits c fuel n g = some (beats, g₁)) (h' : refBits c' fuel' n g' = some (beats', g₁')) :
    beats = beats' ∧ Aligned x g₁ g₁' := by
  by_cases hn : n = 0
  · subst hn
    cases h; cases h'
    exact ⟨rfl, hg⟩
  · obtain ⟨bs, hbs, rfl⟩ := refBits_eq_some hn h
    obtain ⟨bs', hbs', rfl⟩ := refBits_eq_some hn h'
    obtain ⟨rfl, hg₁⟩ := takeBits_aligned hc hc' hg hbs hbs'
    exact ⟨rfl, hg₁⟩

theorem refPack_aligned {k : Word} (h : refPack c fuel k g = some (beats, g₁)) (h' : refPack c' fuel' k g' = some (beats', g₁')) :
    beats = beats' ∧ Aligned x g₁ g₁' := by
  by_cases hk : k.toNat ≤ 64
  · rw [refPack_in_range (hk.trans_eq hc.packMax_eq.symm)] at h
    rw [refPack_in_range (hk.trans_eq hc'.packMax_eq.symm)] at h'
    obtain ⟨v, hv, rfl⟩ := map_lastBeat_eq_some h
    obtain ⟨v', hv', rfl⟩ := map_lastBeat_eq_some h'
    obtain ⟨rfl, hg₁⟩ := packBits_aligned hc hc' hg hk hv hv'
    exact ⟨rfl, hg₁⟩
  · rw [refPack_too_large (hc.packMax_eq.trans_lt (Nat.lt_of_not_le hk))] at h
    rw [refPack_too_large (hc'.packMax_eq.trans_lt (Nat.lt_of_not_le hk))] at h'
    cases h; cases h'
    exact ⟨rfl, hg⟩

theorem refBounded_aligned {max : Word} (h : refBounded c fuel max g = some (beats, g₁))
    (h' : refBounded c' fuel' max g' = some (beats', g₁')) : beats = beats' ∧ Aligned x g₁ g₁' := by
  by_cases hmax : max.toNat ≤ 1
  · rw [refBounded_degenerate hmax] at h h'
    cases h; cases h'
    exact ⟨rfl, hg⟩
  · have htwo : 2 ≤ max.toNat := Nat.lt_of_not_le hmax
    obtain ⟨v, hv, rfl⟩ := refBounded_reply h
    obtain ⟨v', hv', rfl⟩ := refBounded_reply h'
    rw [sample_eq_sampleLoop htwo] at hv hv'
    obtain ⟨rfl, hg₁⟩ := sampleLoop_aligned hc hc' (bitlen_le_64 (Nat.one_le_of_lt htwo)) fuel fuel' g g' hg hv hv'
    exact ⟨rfl, hg₁⟩

theorem runCommand_aligned {i : Instr} (h : runCommand c fuel i g = some (beats, g₁))
    (h' : runCommand c' fuel' i g' = some (beats', g₁')) : beats = beats' ∧ Aligned x g₁ g₁' := by
  cases i with
  | bit a =>
    rw [runCommand, ← refPack_one (by rw [hc.packMax_eq]; decide)] at h
    rw [runCommand, ← refPack_one (by rw [hc'.packMax_eq]; decide)] at h'
    exact refPack_aligned hc hc' hg h h'
  | bits n => exact refBits_aligned hc hc' hg h h'
  | pack k => exact refPack_aligned hc hc' hg h h'
  | bounded max => exact refBounded_aligned hc hc' hg h h'
  | reserved0 a => exact refReserved_aligned hg h h'
  | reserved5 a => exact refReserved_aligned hg h h'
  | reserved6 a => exact refReserved_aligned hg h h'
  | reserved7 a => exact refReserved_aligned hg h h'

end

theorem runCommands_cons_eq_some {i : Instr} {is : List Instr} {g g₂ : Gen} {beats : List Beat}
    (h : runCommands c fuel (i :: is) g = some (beats, g₂)) :
    ∃ (first others : List Beat) (g₁ : Gen), runCommand c fuel i g = some (first, g₁) ∧
      runCommands c fuel is g₁ = some (others, g₂) ∧ beats = first ++ others := by
  rw [runCommands] at h
  split at h
  · cases h
  · next first g₁ hfirst =>
    split at h
    · cases h
    · next others g₃ hothers => cases h; exact ⟨first, others, g₁, hfirst, hothers, rfl⟩

theorem runCommands_aligned (hc : OtherThreshold c) (hc' : OtherThreshold c') {g₁ g₁' : Gen} (is : List Instr) :
    ∀ (g g' : Gen) (beats beats' : List Beat), Aligned x g g' → runCommands c fuel is g = some (beats, g₁) →
      runCommands c' fuel' is g' = some (beats', g₁') → beats = beats' := by
  induction is with
  | nil => intro g g' beats beats' _ h h'; cases h; cases h'; rfl
  | cons i is ih =>
    intro g g' beats beats' hg h h'
    obtain ⟨first, others, k, hfirst, hothers, rfl⟩ := runCommands_cons_eq_some h
    obtain ⟨first', others', k', hfirst', hothers', rfl⟩ := runCommands_cons_eq_some h'
    obtain ⟨rfl, hk⟩ := runCommand_aligned hc hc' hg hfirst hfirst'
    rw [ih k k' others others' hk hothers hothers']

end

/-- Settles O24: both generators start at the same seed with no bit taken, and every command takes equally many from both. -/
theorem repliesIndependentOfThreshold : Obligations.RepliesIndependentOfThreshold := by
  intro n fuel fuel' sel seedIn is beats beats' g g' _ h h'
  have hc : OtherThreshold hw := ⟨32, rfl⟩
  have hc' : OtherThreshold { hw with thresh := n } := ⟨n, rfl⟩
  rw [hc.genReset_eq] at h
  rw [hc'.genReset_eq] at h'
  exact runCommands_aligned hc hc' is _ _ beats beats' ⟨[], .nil _, .nil _⟩ h h'

end Sys2Proof.Machine
end
